-- ==== Sys2Proof/Word.lean ====
section
/-! DEFINITION. The word types of the core: a byte (00_scope.md R7, `BYTE_W` = 8), one bit, and the
three bits of the opcode port (R60). Arithmetic on them stands in Machine/Bits.lean. -/

namespace Sys2Proof

/-- A byte, an unsigned value of 8 bits; bit 0 is the least significant (R7, R9). -/
abbrev Byte := BitVec 8

/-- One bit: a parity bit or the mode bit (R25, R83). -/
abbrev Bit := BitVec 1

/-- A value of the command port `OP` (R60). -/
abbrev OpWord := BitVec 3

end Sys2Proof
end

