-- ==== Sys2Proof/Machine/Bits.lean ====
section
/-! DEFINITION. The arithmetic primitives of 00_scope.md R9 to R11, the stream order of 20_memory.md
R42, and blocks as numbers (R43). -/

namespace Sys2Proof.Machine

/-- `shl8(v, k) = (v * 2^k) mod 256` (R11). -/
def shl8 (v : Byte) (k : Nat) : Byte := v <<< k

/-- `shr(v, k) = floor(v / 2^k)` (R11). -/
def shr (v : Byte) (k : Nat) : Byte := v >>> k

/-- `bit * 2^k`: the byte with `bit` at position `k` and zeros elsewhere (R11). -/
def bitAt (p : Bit) (k : Nat) : Byte := (p.setWidth 8) <<< k

/-- `popcount(v) = v[0] + v[1] + ... + v[7]` (R11). -/
def popcount (v : Byte) : Nat :=
  (v.getLsbD 0).toNat + (v.getLsbD 1).toNat + (v.getLsbD 2).toNat + (v.getLsbD 3).toNat +
    (v.getLsbD 4).toNat + (v.getLsbD 5).toNat + (v.getLsbD 6).toNat + (v.getLsbD 7).toNat

/-- Stream bit `s` of a buffer: bit `7 - (s mod 8)` of the byte at index `s div 8` (R42). -/
def streamBit (bytes : List Byte) (s : Nat) : Option Bool :=
  match bytes[s / 8]? with
  | some v => some (v.getLsbD (7 - s % 8))
  | none => none

/-- The big-endian base-256 numeral of a buffer (R42, R43). -/
def bigEndian : List Byte → Nat
  | [] => 0
  | v :: vs => v.toNat * 256 ^ vs.length + bigEndian vs

end Sys2Proof.Machine
end

