-- ==== Sys2Proof/Machine/Memory.lean ====
section
/-! DEFINITION. A buffer, `IN` or `OUT`: bytes addressed by an index that starts at 0 (20_memory.md
R40). It is a list of cells in one canonical form, addresses strictly rising; an index that is not
listed has no value (R46, log 7), so no entry can equal what an unlisted index reads as. Every
access is one byte wide (R44). -/

namespace Sys2Proof.Machine

/-- A buffer as plain data. -/
abbrev Memory := List Host.Cell

/-- `MemRead(_, 1)`: the byte at an index, or no value (R44, R46). -/
def Memory.read : Memory → Nat → Option Byte
  | [], _ => none
  | (a, v) :: m, i => if a = i then some v else Memory.read m i

/-- `MemWrite(_, 1, v)`: one byte is set and nothing else (R44). -/
def Memory.write : Memory → Nat → Byte → Memory
  | [], i, v => [(i, v)]
  | (a, w) :: m, i, v =>
    if i < a then (i, v) :: (a, w) :: m
    else if i = a then (i, v) :: m
    else (a, w) :: Memory.write m i v

/-- The `n` bytes from index `i` upward, or no value if one of them has none. -/
def Memory.readList (m : Memory) : Nat → Nat → Option (List Byte)
  | _, 0 => some []
  | i, n + 1 =>
    match m.read i, Memory.readList m (i + 1) n with
    | some v, some vs => some (v :: vs)
    | _, _ => none

/-- Write a list of bytes from index `i` upward, in ascending order (R52). -/
def Memory.writeList : Memory → Nat → List Byte → Memory
  | m, _, [] => m
  | m, i, v :: vs => Memory.writeList (m.write i v) (i + 1) vs

/-- The canonical form: addresses strictly rising. -/
def Memory.wf : Memory → Bool
  | [] => true
  | (a, _) :: m =>
    match m with
    | [] => true
    | (b, _) :: _ => decide (a < b) && Memory.wf m

end Sys2Proof.Machine
end

