-- ==== Sys2Proof/Machine/State.lean ====
section
/-! DEFINITION. The state of the core, 10_state.md R21, whole, and its value after reset (R32, R160).
Everything is plain data. The field `offered` is the model's own rendering of R125's "then offers
the command" (log 2). -/

namespace Sys2Proof.Machine

/-- `phase`: RUN between acceptance and completion, else IDLE (R24). -/
inductive Phase where
  | idle
  | run
  deriving DecidableEq, Repr

/-- The values of the port `STATUS` (R65); the code 3 is never produced, so it is no value here. -/
inductive Status where
  /-- 0: the command produced its full result. -/
  | ok
  /-- 1: the length is not the required multiple (R140). -/
  | invalidLength
  /-- 2: reserved opcode (R142). -/
  | illegalCommand
  deriving DecidableEq, Repr

/-- Why the machine, or a read by the host, stops with a fault. -/
inductive Fault where
  /-- A host reads `STATUS`, `OUTLEN` or `P` while the port has no value (R26, R32, U8). Raised by the
  host's reads in Machine/HostPort.lean only. Safe: the spec calls this a fault of the host. -/
  | resultPortHasNoValue
  /-- A host reads a byte of `OUT` that has no value: at or beyond `OUTLEN`, after an error, after
  reset, or before completion (R46, U9). Raised by the host's reads only. Safe. -/
  | outByteHasNoValue
  /-- A micro-step with `pos` from 9 to 15, values R23 says are never taken. Raised by `microStep`
  only, in states no run reaches (log 11). Safe. -/
  | posOutOfRange
  /-- RUN with a latched opcode that is no buffer command, which R100, R117 and R126 never lead to.
  Raised by `microStep` only, in states no run reaches (log 11). Safe. -/
  | runWithoutBufferCommand
  deriving DecidableEq, Repr

/-- Why a run has no meaning in the model. -/
inductive Refusal where
  /-- An instruction whose meaning is not written yet. Raised by `exec` only. Safe. -/
  | notModelled (mnemonic : String)
  /-- A byte of `IN[0..LEN-1]` that the command must read has no value: `LEN` does not tell the truth
  (R167, D15, U5: refuse). Raised by PACK.* and UNPACK only. Safe (log 7). -/
  | inByteHasNoValue
  /-- A command is offered while `phase = RUN` (R169, D15, U11). Raised by every command, by `step` and
  by the host's offer. Safe (log 12). -/
  | commandOfferedInRun
  /-- A command is offered while an earlier offer still stands (R164, R169). Raised by the host's offer
  only. Safe (log 12). -/
  | offerPending
  /-- `LEN` of an offered buffer command is not the number of bytes placed in `IN` (R167, D15, U5: refuse).
  Raised by the host's offer only. Safe (log 8). -/
  | lenNotTrue
  /-- The host drives `OP`, `LEN` or `B` while its offer stands and is not yet accepted (R163; the spec gives
  no consequence). Raised by the host's drive only. Safe (log 20). -/
  | portsDrivenDuringOffer
  /-- `OUT` has less room than the output length (R170, D15, U12: refuse). Raised by the host's offer
  only. Safe (log 13). -/
  | outTooSmall
  /-- `IN` and `OUT` share storage (R165, D15, U3: refuse). Raised by the host's offer only. Safe
  (logs 13, 21). -/
  | buffersOverlap
  /-- The host writes a byte of `IN[0..N-1]` between offer and completion (R164, D15, U4: refuse).
  Raised by the host's write only. Safe (log 16). -/
  | inWrittenDuringCommand
  /-- The host writes `OUT` between acceptance and completion (R166, D15: no such move). Raised by the
  host's write only. Safe (log 16). -/
  | outWrittenDuringCommand
  deriving DecidableEq, Repr

/-- The state of the core, its ports and its two buffers (R21). -/
structure State where
  /-- The carry accumulator (R22). -/
  carry : Byte
  /-- The bit-position counter, four bits, values 0 to 8 (R23). -/
  pos : BitVec 4
  /-- Index of the current block (R24). -/
  blk : Nat
  /-- Number of blocks, latched at acceptance (R24). -/
  nblk : Nat
  /-- The opcode latched at acceptance (R24). -/
  opl : OpWord
  /-- IDLE or RUN (R24). -/
  phase : Phase
  /-- The command port `OP` (R25). -/
  op : OpWord
  /-- The operand port `LEN` (R25), unbounded (log 4). -/
  len : Nat
  /-- The operand port `B` (R25). -/
  b : Byte
  /-- The host offers the command that stands on the ports (R125; the model's own field, log 2). -/
  offered : Bool
  /-- The input buffer `IN` (R30, R40). -/
  inp : Memory
  /-- The output buffer `OUT` (R30, R40). -/
  out : Memory
  /-- The result port `STATUS`, or no value (R26, log 5). -/
  status : Option Status
  /-- The result port `OUTLEN`, or no value (R26, log 5). -/
  outLen : Option Nat
  /-- The result port `P`, or no value (R26, log 5). -/
  p : Option Bit
  deriving DecidableEq, Repr

/-- The state right after reset (R32, R160). The ports `OP`, `LEN`, `B` and `offered` are the host's and
have no reset value; zero is a DESIGN CHOICE (log 6, log 2). Neither buffer lists a byte. -/
def State.reset : State where
  carry := 0
  pos := 0
  blk := 0
  nblk := 0
  opl := 0
  phase := .idle
  op := 0
  len := 0
  b := 0
  offered := false
  inp := []
  out := []
  status := none
  outLen := none
  p := none

end Sys2Proof.Machine
end

