-- ==== Sys2Proof/Machine/Flags.lean ====
section
/-! DEFINITION. The two status-like values of the core (10_state.md R29): the parity bit `P`
(40_parity.md R83) and the codes of `STATUS` (30_encoding.md R65). -/

namespace Sys2Proof.Machine

/-- `par(m, b) = (popcount(b) + m) mod 2`, with `m` 0 for Even and 1 for Odd (R62, R83). -/
def par (m : Bit) (v : Byte) : Bit := BitVec.ofNat 1 (popcount v + m.toNat)

/-- `even_parity(b) = par(0, b)` (R83). -/
def evenParity (v : Byte) : Bit := par 0 v

/-- `odd_parity(b) = par(1, b)` (R83). -/
def oddParity (v : Byte) : Bit := par 1 v

/-- The two bits of `STATUS` (R65). -/
def Status.code : Status → BitVec 2
  | .ok => 0
  | .invalidLength => 1
  | .illegalCommand => 2

/-- Reading the two bits of `STATUS`: 3 is never produced and spells no status (R65, U7). -/
def Status.ofCode (c : BitVec 2) : Option Status :=
  match c.toNat with
  | 0 => some .ok
  | 1 => some .invalidLength
  | 2 => some .illegalCommand
  | _ => none

end Sys2Proof.Machine
end

