-- ==== Sys2Proof/Config.lean ====
section
/-! DEFINITION. The parameters that 00_scope.md R7 fixes. The parameters R8 leaves open are not
constants of the model: `LEN_W` is taken unbounded (log 4), `IN_BASE` and `OUT_BASE` are fields of a
host's offer (log 13), `HANDSHAKE` is the flag `offered` (log 2), and `CYCLES_PER_BYTE` and
`PAR_BLOCKS` reach no result (log 18). No value of the spec is free, so there is no opaque
constant here (log 5). -/

namespace Sys2Proof

/-- Bytes in a raw block, `RAW_BLK` (R7, R69). -/
@[simp] abbrev Config.rawBlk : Nat := 8

/-- Bytes in an encoded block, `ENC_BLK` (R7, R66). -/
@[simp] abbrev Config.encBlk : Nat := 9

/-- Width of the opcode, `OP_W` (R8, R60). -/
@[simp] abbrev Config.opW : Nat := 3

end Sys2Proof
end

