-- ==== Sys2Proof/Syntax.lean ====
section
/-! DEFINITION. The instruction set: one constructor for each row of spec/opcode_table.json, the
eight values of `OP` (30_encoding.md R61). The operands `LEN`, `B` and `IN` are presented on ports
and not in the opcode (R60, R63), so no constructor has an argument. -/

namespace Sys2Proof

/-- The commands of the core and the two reserved opcodes (R61). -/
inductive Instr where
  /-- `PAR.EVEN`, `OP = 000`: even parity bit of the byte `B` (R81). -/
  | parEven
  /-- `PAR.ODD`, `OP = 001`: odd parity bit of the byte `B` (R82). -/
  | parOdd
  /-- `PACK.EVEN`, `OP = 010`: pack `IN[0..LEN-1]` with even parity (R96). -/
  | packEven
  /-- `PACK.ODD`, `OP = 011`: pack `IN[0..LEN-1]` with odd parity (R97). -/
  | packOdd
  /-- `UNPACK`, `OP = 100`: strip the parity bits of `IN[0..LEN-1]` (R113). -/
  | unpack
  /-- `UNPACK` with the mode bit set, `OP = 101`: executes exactly as `100` (R64, R113). -/
  | unpackAlias
  /-- Reserved, `OP = 110`: raises `IllegalCommand` (R64, R142). -/
  | reserved110
  /-- Reserved, `OP = 111`: raises `IllegalCommand` (R64, R142). -/
  | reserved111
  deriving DecidableEq, Repr

end Sys2Proof
end

