-- ==== Sys2Proof/Decode.lean ====
section
/-! DEFINITION. Decoding and encoding of the opcode port `OP` (30_encoding.md R60 to R62, R64). The
decoder is total on the eight values of `OP`. A number that does not fit the three bits of the port
is no opcode and is rejected by name (log 19). -/

namespace Sys2Proof

/-- The field `CLASS` of an opcode (R60). -/
inductive CmdClass where
  | par
  | pack
  | unpack
  | reserved
  deriving DecidableEq, Repr

/-- Why a number is no opcode. -/
inductive DecodeError where
  /-- A bit above the three bits of `OP` is set (R60). -/
  | bitsAboveOp
  deriving DecidableEq, Repr

/-- `CLASS = OP[2:1]`: 0 PAR, 1 PACK, 2 UNPACK, 3 reserved (R60). -/
def opClass (op : OpWord) : CmdClass :=
  match (op.extractLsb' 1 2).toNat with
  | 0 => .par
  | 1 => .pack
  | 2 => .unpack
  | _ => .reserved

/-- `MODE = OP[0]`: 0 Even, 1 Odd (R60, R62). -/
def opMode (op : OpWord) : Bit := op.extractLsb' 0 1

/-- The opcode map (R61); `MODE` only selects between the two rows of a class. -/
def decode (op : OpWord) : Instr :=
  match opClass op, (opMode op).toNat with
  | .par, 0 => .parEven
  | .par, _ => .parOdd
  | .pack, 0 => .packEven
  | .pack, _ => .packOdd
  | .unpack, 0 => .unpack
  | .unpack, _ => .unpackAlias
  | .reserved, 0 => .reserved110
  | .reserved, _ => .reserved111

/-- The opcode of a command (R61). -/
def encode : Instr → OpWord
  | .parEven => 0b000#3
  | .parOdd => 0b001#3
  | .packEven => 0b010#3
  | .packOdd => 0b011#3
  | .unpack => 0b100#3
  | .unpackAlias => 0b101#3
  | .reserved110 => 0b110#3
  | .reserved111 => 0b111#3

/-- The opcode that a number spells, if it fits the port. -/
def opOfWord (w : Nat) : Except DecodeError OpWord :=
  if w < 2 ^ Config.opW then .ok (BitVec.ofNat 3 w) else .error .bitsAboveOp

/-- Decoding of any number: an instruction, or a rejection by name. -/
def decodeWord (w : Nat) : Except DecodeError Instr :=
  match opOfWord w with
  | .ok op => .ok (decode op)
  | .error e => .error e

/-- The instruction read from a table word of `nbits` bits. -/
def decodeTableWord (nbits w : Nat) : Option Instr :=
  match decodeWord (w % 2 ^ nbits) with
  | .ok i => some i
  | .error _ => none

end Sys2Proof
end

