-- ==== Sys2Proof/Machine/Lengths.lean ====
section
/-! DEFINITION. The length rules of the buffer commands: the length check (60_exceptions.md R141),
the block count (43_sequencing.md R126) and the two length laws (00_scope.md R7, 41_pack.md R98,
42_unpack.md R114). Lengths are unbounded naturals (log 4). -/

namespace Sys2Proof.Machine

/-- Output length of PACK.*: `N + N div 8` (R98). -/
def packLen (n : Nat) : Nat := n + n / Config.rawBlk

/-- Output length of UNPACK: `N - N div 9` (R114). -/
def unpackLen (n : Nat) : Nat := n - n / Config.encBlk

/-- The length check: a multiple of 8 for PACK.*, of 9 for UNPACK; PAR.* and the reserved opcodes
have no length rule (R126, R141). -/
def lengthOk (c : CmdClass) (n : Nat) : Bool :=
  match c with
  | .par => true
  | .pack => n % Config.rawBlk == 0
  | .unpack => n % Config.encBlk == 0
  | .reserved => true

/-- The block count latched at acceptance (R126). -/
def blockCount (c : CmdClass) (n : Nat) : Nat :=
  match c with
  | .par => 0
  | .pack => n / Config.rawBlk
  | .unpack => n / Config.encBlk
  | .reserved => 0

/-- How many bytes of `IN` a command with length operand `n` reads: all `n` of a buffer command of
valid length, none otherwise (R46). -/
def inLength (c : CmdClass) (n : Nat) : Nat :=
  match c with
  | .par => 0
  | .pack => if n % Config.rawBlk = 0 then n else 0
  | .unpack => if n % Config.encBlk = 0 then n else 0
  | .reserved => 0

/-- `N`, the length in bytes of the input buffer of a command with length operand `n` (R12, R25): all `n` of a
buffer command, valid or not; PAR.* and the reserved opcodes have no input buffer and ignore `LEN`
(R63, R64). -/
def bufferLength (c : CmdClass) (n : Nat) : Nat :=
  match c with
  | .par => 0
  | .pack => n
  | .unpack => n
  | .reserved => 0

/-- How many bytes of `OUT` a command with length operand `n` writes, the value of `OUTLEN` at its
completion (R46, R129). -/
def outLength (c : CmdClass) (n : Nat) : Nat :=
  match c with
  | .par => 0
  | .pack => if n % Config.rawBlk = 0 then packLen n else 0
  | .unpack => if n % Config.encBlk = 0 then unpackLen n else 0
  | .reserved => 0

end Sys2Proof.Machine
end

