-- ==== Sys2Proof/Machine/Operands.lean ====
section
/-! DEFINITION. The operands of a command (30_encoding.md R63): the byte on `B`, the length on `LEN`,
and the input buffer by reference. -/

namespace Sys2Proof.Machine

/-- The operand byte of PAR.* (R81, R82). -/
def State.operandByte (s : State) : Byte := s.b

/-- The operand `IN[0..N-1]` of a buffer command, `N = LEN` (R40, R63, R98, R114); no value where the
host placed fewer bytes (R167). -/
def State.operandBytes (s : State) : Option (List Byte) := s.inp.readList 0 s.len

end Sys2Proof.Machine
end

