-- ==== Sys2Proof/Machine/Ops.lean ====
section
/-! DEFINITION. The named operations over the state: the stages of a command of 43_sequencing.md R126
(accept, latch, complete), the start and end of blocks (R127, R162), and the one error entry that
both errors take (60_exceptions.md R145). There is no return from an error to model: nothing is
saved, and the next command is accepted as if the failed one had never been presented (R146). -/

namespace Sys2Proof.Machine

/-- Acceptance (R125, R126): `phase <- RUN`, the offer is taken, and from now until completion the
result ports have no value (R26). -/
def State.accept (s : State) : State :=
  { s with offered := false, phase := .run, status := none, outLen := none, p := none }

/-- The latch stage of R126: `opl` and `nblk`, and `blk`, which every acceptance that passes its checks
rewrites (R24, R32, log 9). -/
def State.latch (op : OpWord) (nblk : Nat) (s : State) : State :=
  { s with opl := op, nblk := nblk, blk := 0 }

/-- The start of a block: `pos <- 0 ; carry <- 0` (R162). -/
def State.startBlock (s : State) : State :=
  { s with pos := 0, carry := 0 }

/-- Where the micro-steps of a whole buffer leave `(blk, pos)` and `carry`: `(nblk, 0)` and 0 (R127). -/
def State.endBlocks (s : State) : State :=
  { s with blk := s.nblk, pos := 0, carry := 0 }

/-- Write the output buffer from index 0 (R98, R114). -/
def State.writeOut (bytes : List Byte) (s : State) : State :=
  { s with out := s.out.writeList 0 bytes }

/-- Completion of a buffer command with STATUS OK (R129). -/
def State.completeBuffer (outLen : Nat) (s : State) : State :=
  { s with phase := .idle, status := some .ok, outLen := some outLen, p := none }

/-- Completion of a parity command (R129). -/
def State.completePar (bit : Bit) (s : State) : State :=
  { s with phase := .idle, status := some .ok, outLen := some 0, p := some bit }

/-- Error entry (R145): no buffer is touched, `STATUS` takes the error's code, `OUTLEN <- 0`, `P` has no
value, `phase <- IDLE`. Control goes nowhere and nothing is saved. -/
def State.raise (e : Status) (s : State) : State :=
  { s with phase := .idle, status := some e, outLen := some 0, p := none }

/-- A command is accepted only when `phase = IDLE` (R125, R169); offered in RUN it has no meaning
(D15, log 12). -/
def State.accepted (s : State) (k : State → Host.Outcome State Fault Refusal) :
    Host.Outcome State Fault Refusal :=
  match s.phase with
  | .idle => k s.accept
  | .run => .refused .commandOfferedInRun

end Sys2Proof.Machine
end

