-- ==== Sys2Proof/Machine/Pack.lean ====
section
/-! DEFINITION. The block packer, 8 to 9: PACK.EVEN and PACK.ODD (41_pack.md). -/

namespace Sys2Proof.Machine

/-- Encoded byte `e_j` for `1 <= j <= 7` from the previous raw byte and the current one: the three
components (a), (c) and (b) of step 2 (R92, R93). -/
def encByte (m : Bit) (j : Nat) (prev cur : Byte) : Byte :=
  shl8 prev (9 - j) ||| bitAt (par m prev) (8 - j) ||| shr cur j

/-- Encoded byte `e_8`, which has no current byte: it depends on `r_7` alone (R93, R101). -/
def encLast (m : Bit) (prev : Byte) : Byte :=
  shl8 prev 1 ||| bitAt (par m prev) 0

/-- `packblk(m, r_0 ... r_7) = e_0 ... e_8` (R90, R91, R93). -/
def packBlock (m : Bit) (r0 r1 r2 r3 r4 r5 r6 r7 : Byte) : List Byte :=
  [r0, encByte m 1 r0 r1, encByte m 2 r1 r2, encByte m 3 r2 r3, encByte m 4 r3 r4,
    encByte m 5 r4 r5, encByte m 6 r5 r6, encByte m 7 r6 r7, encLast m r7]

/-- The blocks of a whole buffer, in ascending order, each on its own (R98, R99, R128). Bytes that do not
fill a block produce nothing; a buffer with such bytes never gets here (R141). -/
def packBytes (m : Bit) : List Byte → List Byte
  | r0 :: r1 :: r2 :: r3 :: r4 :: r5 :: r6 :: r7 :: rest =>
    packBlock m r0 r1 r2 r3 r4 r5 r6 r7 ++ packBytes m rest
  | _ => []

/-- A pack command with mode `m` and opcode `op` (R98, R126, R129). The length check comes before any
access to a buffer. -/
def packCommand (m : Bit) (op : OpWord) (s : State) : Host.Outcome State Fault Refusal :=
  s.accepted fun a =>
    if lengthOk .pack a.len then
      match a.operandBytes with
      | some raw =>
        .next ((((a.latch op (blockCount .pack a.len)).writeOut (packBytes m raw)).endBlocks).completeBuffer
          (packLen a.len))
      | none => .refused .inByteHasNoValue
    else .next (a.raise .invalidLength)

/-- `PACK.EVEN` (R96). -/
def execPackEven (s : State) : Host.Outcome State Fault Refusal :=
  packCommand 0 (encode .packEven) s

/-- `PACK.ODD` (R97). -/
def execPackOdd (s : State) : Host.Outcome State Fault Refusal :=
  packCommand 1 (encode .packOdd) s

end Sys2Proof.Machine
end

