-- ==== Sys2Proof/Machine/Parity.lean ====
section
/-! DEFINITION. The parity bit generator: PAR.EVEN and PAR.ODD (40_parity.md R81, R82). -/

namespace Sys2Proof.Machine

/-- A parity command with mode `m` and opcode `op` (R81, R82, R126): `P <- par(m, B)`. -/
def parCommand (m : Bit) (op : OpWord) (s : State) : Host.Outcome State Fault Refusal :=
  s.accepted fun a => .next ((a.latch op 0).completePar (par m a.operandByte))

/-- `PAR.EVEN` (R81). -/
def execParEven (s : State) : Host.Outcome State Fault Refusal :=
  parCommand 0 (encode .parEven) s

/-- `PAR.ODD` (R82). -/
def execParOdd (s : State) : Host.Outcome State Fault Refusal :=
  parCommand 1 (encode .parOdd) s

end Sys2Proof.Machine
end

