-- ==== Sys2Proof/Machine/Reserved.lean ====
section
/-! DEFINITION. The reserved opcodes: they raise `IllegalCommand` (30_encoding.md R64, 60_exceptions.md
R142). -/

namespace Sys2Proof.Machine

/-- A command with a reserved opcode: error entry at the decode stage of R126, before anything is
latched (R142, R145). -/
def reservedCommand (s : State) : Host.Outcome State Fault Refusal :=
  s.accepted fun a => .next (a.raise .illegalCommand)

/-- Reserved `OP = 110` (R64). -/
def execReserved110 (s : State) : Host.Outcome State Fault Refusal := reservedCommand s

/-- Reserved `OP = 111` (R64). -/
def execReserved111 (s : State) : Host.Outcome State Fault Refusal := reservedCommand s

end Sys2Proof.Machine
end

