-- ==== Sys2Proof/Machine/Unpack.lean ====
section
/-! DEFINITION. The block unpacker, 9 to 8: UNPACK and its alias (42_unpack.md, 30_encoding.md R64). -/

namespace Sys2Proof.Machine

/-- Raw byte `r_j` from `e_j` and `e_(j+1)` (R111). -/
def decByte (j : Nat) (e next : Byte) : Byte := shl8 e j ||| shr next (8 - j)

/-- `unpackblk(e_0 ... e_8) = r_0 ... r_7` (R110, R111). -/
def unpackBlock (e0 e1 e2 e3 e4 e5 e6 e7 e8 : Byte) : List Byte :=
  [decByte 0 e0 e1, decByte 1 e1 e2, decByte 2 e2 e3, decByte 3 e3 e4, decByte 4 e4 e5,
    decByte 5 e5 e6, decByte 6 e6 e7, decByte 7 e7 e8]

/-- The blocks of a whole buffer, in ascending order, each on its own (R114, R118). Bytes that do not
fill a block produce nothing; a buffer with such bytes never gets here (R141). -/
def unpackBytes : List Byte → List Byte
  | e0 :: e1 :: e2 :: e3 :: e4 :: e5 :: e6 :: e7 :: e8 :: rest =>
    unpackBlock e0 e1 e2 e3 e4 e5 e6 e7 e8 ++ unpackBytes rest
  | _ => []

/-- An unpack command with opcode `op` (R114, R126, R129). Parity bits are neither checked nor used
(R112, R152). -/
def unpackCommand (op : OpWord) (s : State) : Host.Outcome State Fault Refusal :=
  s.accepted fun a =>
    if lengthOk .unpack a.len then
      match a.operandBytes with
      | some enc =>
        .next ((((a.latch op (blockCount .unpack a.len)).writeOut (unpackBytes enc)).endBlocks).completeBuffer
          (unpackLen a.len))
      | none => .refused .inByteHasNoValue
    else .next (a.raise .invalidLength)

/-- `UNPACK`, `OP = 100` (R113). -/
def execUnpack (s : State) : Host.Outcome State Fault Refusal :=
  unpackCommand (encode .unpack) s

/-- `UNPACK`, `OP = 101`: executes exactly as `100`; only the latched opcode differs (R64, R126). -/
def execUnpackAlias (s : State) : Host.Outcome State Fault Refusal :=
  unpackCommand (encode .unpackAlias) s

end Sys2Proof.Machine
end

