-- ==== Sys2Proof/Machine/Dispatch.lean ====
section
/-! DEFINITION. The meaning of every command at transaction level: one atomic transition from inputs to
results (00_scope.md R13). One arm for each row of spec/opcode_table.json. -/

namespace Sys2Proof.Machine

def exec (i : Instr) (s : State) : Host.Outcome State Fault Refusal :=
  match i with
  | .parEven => Sys2Proof.Machine.execParEven s
  | .parOdd => Sys2Proof.Machine.execParOdd s
  | .packEven => Sys2Proof.Machine.execPackEven s
  | .packOdd => Sys2Proof.Machine.execPackOdd s
  | .unpack => Sys2Proof.Machine.execUnpack s
  | .unpackAlias => Sys2Proof.Machine.execUnpackAlias s
  | .reserved110 => Sys2Proof.Machine.execReserved110 s
  | .reserved111 => Sys2Proof.Machine.execReserved111 s

end Sys2Proof.Machine
end

