-- ==== Sys2Proof/Machine/Micro.lean ====
section
/-! DEFINITION. The byte-serial micro-step machine of 41_pack.md R100 and 42_unpack.md R117: acceptance
that only starts a buffer command, one micro-step, and completion. It refines the transaction level
(00_scope.md R13). -/

namespace Sys2Proof.Machine

/-- The acceptance of a command at micro-step level (R126): the stages up to `latch`, then the start of
the micro-steps. A parity command and an error are over at once. -/
def microAccept (i : Instr) (s : State) : Host.Outcome State Fault Refusal :=
  s.accepted fun a =>
    let op := encode i
    let c := opClass op
    match c with
    | .par => .next ((a.latch op 0).completePar (par (opMode op) a.operandByte))
    | .reserved => .next (a.raise .illegalCommand)
    | .pack | .unpack =>
      if lengthOk c a.len then .next ((a.latch op (blockCount c a.len)).startBlock)
      else .next (a.raise .invalidLength)

/-- The advance of `(blk, pos)` after a micro-step (R127); at the block boundary both working registers
are reset (R162). -/
def State.advance (s : State) : State :=
  if s.pos.toNat < 8 then { s with pos := s.pos + 1 }
  else { s with pos := 0, carry := 0, blk := s.blk + 1 }

/-- Read `IN[i]` in a micro-step; a byte without a value gives the run no meaning (R167). -/
def State.readIn (s : State) (i : Nat) (k : Byte → Host.Outcome State Fault Refusal) :
    Host.Outcome State Fault Refusal :=
  match s.inp.read i with
  | some v => k v
  | none => .refused .inByteHasNoValue

/-- One micro-step of the packer, `k = blk`, `j = pos` (R100). The previous raw byte is read again for its
parity (D17); at `j = 8` no current byte is read (R101). -/
def packMicro (s : State) : Host.Outcome State Fault Refusal :=
  let k := s.blk
  let j := s.pos.toNat
  let m := opMode s.opl
  if j = 0 then
    s.readIn (8 * k) fun cur =>
      .next ({ s with out := s.out.write (9 * k) cur, carry := shl8 cur 8 } : State).advance
  else if j ≤ 7 then
    s.readIn (8 * k + j - 1) fun prev =>
      s.readIn (8 * k + j) fun cur =>
        .next ({ s with
          out := s.out.write (9 * k + j) (s.carry ||| bitAt (par m prev) (8 - j) ||| shr cur j)
          carry := shl8 cur (8 - j) } : State).advance
  else if j = 8 then
    s.readIn (8 * k + 7) fun prev =>
      .next ({ s with out := s.out.write (9 * k + 8) (s.carry ||| bitAt (par m prev) 0) } : State).advance
  else .fault .posOutOfRange

/-- One micro-step of the unpacker, `k = blk`, `i = pos` (R117): one encoded byte is read; a raw byte is
written at every step but the first. -/
def unpackMicro (s : State) : Host.Outcome State Fault Refusal :=
  let k := s.blk
  let i := s.pos.toNat
  if i = 0 then
    s.readIn (9 * k) fun e => .next ({ s with carry := e } : State).advance
  else if i ≤ 7 then
    s.readIn (9 * k + i) fun e =>
      .next ({ s with
        out := s.out.write (8 * k + i - 1) (s.carry ||| shr e (9 - i))
        carry := shl8 e i } : State).advance
  else if i = 8 then
    s.readIn (9 * k + 8) fun e =>
      .next ({ s with out := s.out.write (8 * k + 7) (s.carry ||| shr e 1) } : State).advance
  else .fault .posOutOfRange

/-- A step in RUN: a micro-step while `blk < nblk`, else completion (R100, R117, R129). The output length
follows from the latched block count, `9 * nblk` or `8 * nblk` (R98, R114); `LEN` is not read again
(R51). -/
def microStep (s : State) : Host.Outcome State Fault Refusal :=
  match opClass s.opl with
  | .pack => if s.blk < s.nblk then packMicro s else .next (s.completeBuffer (9 * s.nblk))
  | .unpack => if s.blk < s.nblk then unpackMicro s else .next (s.completeBuffer (8 * s.nblk))
  | .par => .fault .runWithoutBufferCommand
  | .reserved => .fault .runWithoutBufferCommand

/-- A step of the core at micro-step level: an offered command is accepted in IDLE, and RUN goes on by
micro-steps (R13, R125, R126). -/
def stepMicro (s : State) : Host.Outcome State Fault Refusal :=
  match s.phase with
  | .run => if s.offered then .refused .commandOfferedInRun else microStep s
  | .idle => if s.offered then microAccept (decode s.op) s else .next s

/-- `n` steps at micro-step level, stopping at the first fault or refusal (R127, R130). -/
def microRun : Nat → State → Host.Outcome State Fault Refusal
  | 0, s => .next s
  | n + 1, s =>
    match stepMicro s with
    | .next t => microRun n t
    | .fault f => .fault f
    | .refused r => .refused r

end Sys2Proof.Machine
end

