-- ==== Sys2Proof/Machine/Step.lean ====
section
/-! DEFINITION. One step of the core (43_sequencing.md R125): in IDLE an offered command is executed as
one atomic transaction (00_scope.md R13, log 1); with nothing offered the core waits (log 2); a state
in RUN, which only the micro-step level enters, goes on by one micro-step. -/

namespace Sys2Proof.Machine

/-- One step. -/
def step (s : State) : Host.Outcome State Fault Refusal :=
  match s.phase with
  | .idle => if s.offered then exec (decode s.op) s else .next s
  | .run => if s.offered then .refused .commandOfferedInRun else microStep s

/-- The state with the command of a table word offered on `OP`, so that the very next step executes it
(log 3). A number that is no opcode cannot be driven on the port: nothing changes. -/
def State.withFetchWord (s : State) (nbits w : Nat) : State :=
  match opOfWord (w % 2 ^ nbits) with
  | .ok op => { s with op := op, offered := true, phase := .idle }
  | .error _ => s

end Sys2Proof.Machine
end

