-- ==== Sys2Proof/WellFormed.lean ====
section
/-! DEFINITION. What is well formed. An instruction carries no operand (30_encoding.md R63), so every
term of `Instr` is an instruction of the core and there is nothing in it to check. What can be ill
formed is what the host presents with it: an `Offer`. Its checks are the duties of
70_reset_and_hazards.md R163, R165, R167 and R170; Machine/HostPort.lean refuses an offer that
fails one. -/

namespace Sys2Proof

/-- Every instruction is well formed: no constructor has an operand that could be out of range
(R61: the decoder is total; R63: no operand is assembled from opcode bits). -/
abbrev Instr.WellFormed (_ : Instr) : Prop := True

/-- A command as the host presents it (R25, R125, R163): the three ports, the bytes placed in `IN`
from index 0, the room given for `OUT`, and where the two buffers stand in the host's storage
(`IN_BASE`, `OUT_BASE` of R8, R47), numbered as one space (log 21). -/
structure Offer where
  op : OpWord
  len : Nat
  b : Byte
  bytes : List Byte
  room : Nat
  inBase : Nat
  outBase : Nat
  deriving DecidableEq, Repr

/-- R167: for a buffer command `LEN` is the number of bytes placed, whether or not that length is valid; the
other commands ignore `LEN` and `IN` (R63), and bytes placed with them are owed no count (log 8). -/
abbrev Offer.LenTrue (o : Offer) : Prop :=
  opClass o.op = .pack ∨ opClass o.op = .unpack → o.len = o.bytes.length

/-- R170: `OUT` has room for the output length. -/
abbrev Offer.RoomEnough (o : Offer) : Prop :=
  Machine.outLength (opClass o.op) o.len ≤ o.room

/-- R165: no byte of `OUT` is a byte of `IN`. DESIGN CHOICE (log 21): R47 leaves open whether the two buffers
stand in one memory at all; the model compares `inBase` and `outBase` as places in one number space, so a
host with separate memories numbers them apart. -/
abbrev Offer.BuffersDistinct (o : Offer) : Prop :=
  o.inBase + Machine.inLength (opClass o.op) o.len ≤ o.outBase ∨
    o.outBase + Machine.outLength (opClass o.op) o.len ≤ o.inBase

/-- The offer keeps the host's duties. -/
abbrev Offer.WellFormed (o : Offer) : Prop :=
  o.LenTrue ∧ o.RoomEnough ∧ o.BuffersDistinct

end Sys2Proof
end

