-- ==== Sys2Proof/Machine/HostPort.lean ====
section
/-! DEFINITION. What the host can do to the core (43_sequencing.md R125, 70_reset_and_hazards.md R163 to
R170): present a command, drop it, write the buffers it owns, read the results; and reset, the event
from outside (R160). A broken duty is refused by name (92_eei_decisions.md D15). -/

namespace Sys2Proof.Machine

/-- The host presents a command (R125, R163): it drives the ports, places the bytes in `IN` from index 0
and offers. Refused: in RUN (R169), while an earlier offer stands (R164, R169), and when a duty of
R165, R167 or R170 is broken. -/
def State.present (o : Offer) (s : State) : Host.Outcome State Fault Refusal :=
  match s.phase with
  | .run => .refused .commandOfferedInRun
  | .idle =>
    if s.offered then .refused .offerPending
    else if ¬ o.LenTrue then .refused .lenNotTrue
    else if ¬ o.RoomEnough then .refused .outTooSmall
    else if ¬ o.BuffersDistinct then .refused .buffersOverlap
    else .next { s with
      op := o.op
      len := o.len
      b := o.b
      inp := s.inp.writeList 0 o.bytes
      offered := true }

/-- The host drops a command the core has not accepted: "a caller may simply drop a not-yet-started
call" (R173). -/
def State.drop (s : State) : State := { s with offered := false }

/-- The values of the three ports changed, and nothing else: what driving them does where the host may drive
them. It checks no duty; the host's move is `State.hostDrivePorts`. -/
def State.drivePorts (op : OpWord) (len : Nat) (b : Byte) (s : State) : State :=
  { s with op := op, len := len, b := b }

/-- The host drives the ports. In IDLE with nothing offered it may, and in RUN it may without any effect on the
command in progress (R25, R51). Between the offer and acceptance the spec gives no consequence: R163 has
the host drive the ports before it offers, and R51 speaks of changes after acceptance only. DESIGN CHOICE
(log 20): refused there, so that a standing offer is the one whose duties `State.present` checked; a host
that wants another command drops its offer first (R173). -/
def State.hostDrivePorts (op : OpWord) (len : Nat) (b : Byte) (s : State) :
    Host.Outcome State Fault Refusal :=
  match s.phase with
  | .run => .next (s.drivePorts op len b)
  | .idle =>
    if s.offered then .refused .portsDrivenDuringOffer else .next (s.drivePorts op len b)

/-- How many bytes of `IN` are held from the offer of a command to its completion (R164): the `N` of the command
offered, valid or not, and in RUN the `N` that acceptance latched as `nblk` whole blocks. -/
def State.inHeld (s : State) : Nat :=
  match s.phase with
  | .run =>
    match opClass s.opl with
    | .pack => 8 * s.nblk
    | .unpack => 9 * s.nblk
    | .par => 0
    | .reserved => 0
  | .idle => if s.offered then bufferLength (opClass s.op) s.len else 0

/-- The host writes one byte of `IN`: refused for a byte `IN[0..N-1]` of a command that is offered or runs
(R164). -/
def State.hostWriteIn (i : Nat) (v : Byte) (s : State) : Host.Outcome State Fault Refusal :=
  if i < s.inHeld then .refused .inWrittenDuringCommand
  else .next { s with inp := s.inp.write i v }

/-- The host writes one byte of `OUT`, which it owns outside a command (R41): refused between acceptance
and completion (R166). -/
def State.hostWriteOut (i : Nat) (v : Byte) (s : State) : Host.Outcome State Fault Refusal :=
  match s.phase with
  | .run => .refused .outWrittenDuringCommand
  | .idle => .next { s with out := s.out.write i v }

/-- The host reads `STATUS`; a port without a value is a fault of the host (R26, R32, U8). -/
def State.hostReadStatus (s : State) : Except Fault Status :=
  match s.status with
  | some v => .ok v
  | none => .error .resultPortHasNoValue

/-- The host reads `OUTLEN` (R26, U8). -/
def State.hostReadOutLen (s : State) : Except Fault Nat :=
  match s.outLen with
  | some v => .ok v
  | none => .error .resultPortHasNoValue

/-- The host reads `P` (R26, U8). -/
def State.hostReadP (s : State) : Except Fault Bit :=
  match s.p with
  | some v => .ok v
  | none => .error .resultPortHasNoValue

/-- The host reads `OUT[i]`, which has a value only below `OUTLEN` after a completion with STATUS OK (R46,
R170, U9, log 14). -/
def State.hostReadOut (i : Nat) (s : State) : Except Fault Byte :=
  match s.status, s.outLen with
  | some .ok, some l =>
    if i < l then
      match s.out.read i with
      | some v => .ok v
      | none => .error .outByteHasNoValue
    else .error .outByteHasNoValue
  | _, _ => .error .outByteHasNoValue

/-- The event reset (R160, R161): IDLE, in-call registers 0, result ports without value; the buffers and
the host's ports are not touched (log 15). During a command it aborts it without completion. -/
def State.resetEvent (s : State) : State :=
  { s with
    carry := 0
    pos := 0
    blk := 0
    nblk := 0
    opl := 0
    phase := .idle
    status := none
    outLen := none
    p := none }

end Sys2Proof.Machine
end

