-- ==== Sys2Proof/Machine/Program.lean ====
section
/-! DEFINITION. Results and runs: the result of one command as a function of its inputs alone
(10_state.md R20), and a run, a finite list of commands presented one after another, with the list of
its results (43_sequencing.md R132). -/

namespace Sys2Proof.Machine

/-- What a host takes from a completed command (R129, R145): status, output length, output bytes, parity
bit. -/
structure CommandResult where
  status : Status
  outLen : Nat
  out : List Byte
  p : Option Bit
  deriving DecidableEq, Repr

/-- The result that stands on the ports and in `OUT[0..OUTLEN-1]`, if there is one (R129). -/
def State.result (s : State) : Option CommandResult :=
  match s.status, s.outLen with
  | some st, some l =>
    match s.out.readList 0 l with
    | some bytes => some { status := st, outLen := l, out := bytes, p := s.p }
    | none => none
  | _, _ => none

/-- The result of a command that ends with an error (R145). -/
def CommandResult.error (e : Status) : CommandResult :=
  { status := e, outLen := 0, out := [], p := none }

/-- `exec(OP, LEN, B, IN)` of R20: the result of a command, a function of its opcode, operands and input
buffer and of nothing else. -/
def resultAlone (o : Offer) : CommandResult :=
  match opClass o.op with
  | .par => { status := .ok, outLen := 0, out := [], p := some (par (opMode o.op) o.b) }
  | .pack =>
    if lengthOk .pack o.len then
      { status := .ok, outLen := packLen o.len, out := packBytes (opMode o.op) (o.bytes.take o.len),
        p := none }
    else CommandResult.error .invalidLength
  | .unpack =>
    if lengthOk .unpack o.len then
      { status := .ok, outLen := unpackLen o.len, out := unpackBytes (o.bytes.take o.len), p := none }
    else CommandResult.error .invalidLength
  | .reserved => CommandResult.error .illegalCommand

/-- One command of a run: the host presents it and the core executes it (R125). -/
def runOffer (o : Offer) (s : State) : Host.Outcome State Fault Refusal :=
  match s.present o with
  | .next t => step t
  | .fault f => .fault f
  | .refused r => .refused r

/-- A run (R132): the list of the results of its commands in order, if every command has one. -/
def runOffers : List Offer → State → Option (List CommandResult)
  | [], _ => some []
  | o :: os, s =>
    match runOffer o s with
    | .next t =>
      match t.result, runOffers os t with
      | some r, some rs => some (r :: rs)
      | _, _ => none
    | .fault _ => none
    | .refused _ => none

end Sys2Proof.Machine
end

