-- ==== Sys2Proof/Machine/Asm.lean ====
section
/-! DEFINITION. The assembly notation of 30_encoding.md R70: each line is exactly one command (R71). A line
is given as its list of words; the result of a line is written as a list of words too. -/

namespace Sys2Proof.Machine

/-- An assembly line (R70). -/
inductive AsmLine where
  | odd (bytes : List Byte)
  | even (bytes : List Byte)
  | remove (bytes : List Byte)
  | parOdd (h : Byte)
  | parEven (h : Byte)
  deriving DecidableEq, Repr

/-- The command of a line: an assembler emits `100` for UNPACK (R64, R70). -/
def AsmLine.instr : AsmLine → Instr
  | .odd _ => .packOdd
  | .even _ => .packEven
  | .remove _ => .unpack
  | .parOdd _ => .parOdd
  | .parEven _ => .parEven

/-- The bytes of `IN` that a line names (R70). -/
def AsmLine.bytes : AsmLine → List Byte
  | .odd bs => bs
  | .even bs => bs
  | .remove bs => bs
  | .parOdd _ => []
  | .parEven _ => []

/-- The operand byte that a line names; a buffer line ignores `B`, and 0 stands there (log 17). -/
def AsmLine.operand : AsmLine → Byte
  | .odd _ => 0
  | .even _ => 0
  | .remove _ => 0
  | .parOdd h => h
  | .parEven h => h

/-- The offer of a line (R70): `LEN` is the number of bytes named. The host gives exactly the room needed,
right after the input (log 17). -/
def AsmLine.offer (l : AsmLine) : Offer where
  op := encode l.instr
  len := l.bytes.length
  b := l.operand
  bytes := l.bytes
  room := outLength (opClass (encode l.instr)) l.bytes.length
  inBase := 0
  outBase := l.bytes.length

/-- A hexadecimal digit, upper or lower case (R70). -/
def hexDigit (c : Char) : Option Nat :=
  if 48 ≤ c.toNat ∧ c.toNat ≤ 57 then some (c.toNat - 48)
  else if 65 ≤ c.toNat ∧ c.toNat ≤ 70 then some (c.toNat - 55)
  else if 97 ≤ c.toNat ∧ c.toNat ≤ 102 then some (c.toNat - 87)
  else none

/-- A byte written as two hexadecimal digits, without prefix (R70). -/
def parseByte (w : String) : Option Byte :=
  match w.toList with
  | [h, l] =>
    match hexDigit h, hexDigit l with
    | some x, some y => some (BitVec.ofNat 8 (16 * x + y))
    | _, _ => none
  | _ => none

/-- The bytes of a line. -/
def parseBytes : List String → Option (List Byte)
  | [] => some []
  | w :: ws =>
    match parseByte w, parseBytes ws with
    | some v, some vs => some (v :: vs)
    | _, _ => none

/-- An assembly line from its words: a keyword, then bytes (R70). -/
def parseLine : List String → Option AsmLine
  | [] => none
  | key :: ws =>
    match parseBytes ws with
    | none => none
    | some bs =>
      if key = "odd" then some (.odd bs)
      else if key = "even" then some (.even bs)
      else if key = "remove" then some (.remove bs)
      else
        match bs with
        | [h] =>
          if key = "par.odd" then some (.parOdd h)
          else if key = "par.even" then some (.parEven h)
          else none
        | _ => none

/-- One hexadecimal digit, upper case as the spec's vectors print it. -/
def showDigit (n : Nat) : Char := Char.ofNat (if n < 10 then 48 + n else 55 + n)

/-- A byte as two hexadecimal digits. -/
def showByte (v : Byte) : String := String.ofList [showDigit (v.toNat / 16), showDigit (v.toNat % 16)]

/-- The result of a line in words (R70); `IllegalCommand`, which no line can raise, has no notation. -/
def showResult (r : CommandResult) : Option (List String) :=
  match r.status with
  | .ok =>
    match r.p with
    | some bit => some ["->", "OK:", if bit = 1 then "P=1" else "P=0"]
    | none => some (["->", "OK:"] ++ r.out.map showByte)
  | .invalidLength => some ["->", "InvalidLength"]
  | .illegalCommand => none

end Sys2Proof.Machine
end

