-- ==== Sys2Proof/Machine/StepConstants.lean ====
section
/-! DEFINITION. The step constants of 30_encoding.md R68, one table for each column, row by row as
the spec lists them. Where the table has no entry ("none") the function answers `none`. -/

namespace Sys2Proof.Machine

/-- `CARRY_N[j]`, carried bits merged at step `j` (R68). -/
def carryN (j : Nat) : Nat := j - 1

/-- `CARRY_MASK[j]` (R68). -/
def carryMask : Nat → Byte
  | 2 => 0x80#8
  | 3 => 0xC0#8
  | 4 => 0xE0#8
  | 5 => 0xF0#8
  | 6 => 0xF8#8
  | 7 => 0xFC#8
  | 8 => 0xFE#8
  | _ => 0x00#8

/-- `PAR_POS[j]` (R68): none at step 0. -/
def parPos (j : Nat) : Option Nat := if j = 0 then none else some (8 - j)

/-- `PAR_MASK[j]` (R68). -/
def parMask : Nat → Byte
  | 1 => 0x80#8
  | 2 => 0x40#8
  | 3 => 0x20#8
  | 4 => 0x10#8
  | 5 => 0x08#8
  | 6 => 0x04#8
  | 7 => 0x02#8
  | 8 => 0x01#8
  | _ => 0x00#8

/-- `CUR_SHR[j]` (R68): none at step 8, which has no current byte. -/
def curShr (j : Nat) : Option Nat := if j = 8 then none else some j

/-- `CUR_MASK[j]` (R68). -/
def curMask : Nat → Byte
  | 0 => 0xFF#8
  | 1 => 0x7F#8
  | 2 => 0x3F#8
  | 3 => 0x1F#8
  | 4 => 0x0F#8
  | 5 => 0x07#8
  | 6 => 0x03#8
  | 7 => 0x01#8
  | _ => 0x00#8

/-- `SAVE_SHL[j]` (R68): none at step 8, after which nothing is saved. -/
def saveShl (j : Nat) : Option Nat := if j = 8 then none else some (8 - j)

/-- `SAVE_N[j]`, bits saved after step `j` (R68): none at step 8. -/
def saveN (j : Nat) : Option Nat := if j = 8 then none else some j

end Sys2Proof.Machine
end

