-- ==== Sys2Proof/Machine/Blocks.lean ====
section
/-! DEFINITION. The blocks of a buffer command computed one at a time in ANY order, which an
implementation may do (20_memory.md R52, 43_sequencing.md R128, 60_exceptions.md R150). The reference
order of the commands is ascending; nothing of the machine calls these functions. -/

namespace Sys2Proof.Machine

/-- Raw block `k` packed into its place: reads `IN[8k..8k+7]`, writes `OUT[9k..9k+8]` (R43, R98). -/
def packBlockInto (m : Bit) (inp : Memory) (k : Nat) (out : Memory) : Option Memory :=
  match inp.readList (8 * k) 8 with
  | some raw => some (out.writeList (9 * k) (packBytes m raw))
  | none => none

/-- Encoded block `k` unpacked into its place: reads `IN[9k..9k+8]`, writes `OUT[8k..8k+7]` (R114). -/
def unpackBlockInto (inp : Memory) (k : Nat) (out : Memory) : Option Memory :=
  match inp.readList (9 * k) 9 with
  | some enc => some (out.writeList (8 * k) (unpackBytes enc))
  | none => none

/-- Pack the blocks named in a list, in the order of the list. -/
def packBlocksInOrder (m : Bit) (inp : Memory) : List Nat → Memory → Option Memory
  | [], out => some out
  | k :: ks, out =>
    match packBlockInto m inp k out with
    | some out' => packBlocksInOrder m inp ks out'
    | none => none

/-- Unpack the blocks named in a list, in the order of the list. -/
def unpackBlocksInOrder (inp : Memory) : List Nat → Memory → Option Memory
  | [], out => some out
  | k :: ks, out =>
    match unpackBlockInto inp k out with
    | some out' => unpackBlocksInOrder inp ks out'
    | none => none

end Sys2Proof.Machine
end

