-- ==== Sys2Proof/Safety.lean ====
section
/-! DEFINITION. The terms in which claims about runs are stated: the invariant of the core's state, and
when a command can be executed. -/

namespace Sys2Proof.Machine

/-- Both buffers are in canonical form. -/
abbrev State.BuffersWf (s : State) : Prop := s.inp.wf = true ∧ s.out.wf = true

/-- The bytes `OUT[0..n-1]` have all been written (R46). -/
def State.OutWritten (s : State) (n : Nat) : Prop := ∀ i, i < n → (s.out.read i).isSome = true

/-- The result ports agree with one another as in the table of completion (R129, R145): `STATUS` and
`OUTLEN` have a value together, `P` has one only after a parity command, with STATUS OK and length 0, an
error reports length 0, and after STATUS OK all of `OUT[0..OUTLEN-1]` has been written (R46). -/
def State.ResultsAgree (s : State) : Prop :=
  (s.status.isSome = s.outLen.isSome) ∧
    (s.p.isSome = true → opClass s.opl = .par ∧ s.status = some .ok ∧ s.outLen = some 0) ∧
    (∀ e, s.status = some e → e ≠ .ok → s.outLen = some 0) ∧
    ∀ l, s.status = some .ok → s.outLen = some l → s.OutWritten l

/-- In IDLE the working registers stand at the end of a block and no block is left: after reset by R160, after a
command by R127 and log 9. -/
def State.IdleAtRest (s : State) : Prop :=
  s.phase = .idle → s.carry = 0 ∧ s.pos = 0 ∧ s.blk = s.nblk

/-- In RUN a buffer command is in progress (R24, R126), the result ports have no value (R26), and `(blk, pos)`
is one of the values of R127. -/
def State.RunInProgress (s : State) : Prop :=
  s.phase = .run →
    (opClass s.opl = .pack ∨ opClass s.opl = .unpack) ∧
      s.status = none ∧ s.outLen = none ∧ s.p = none ∧
      s.blk ≤ s.nblk ∧ (s.blk = s.nblk → s.pos = 0)

/-- In RUN the carry accumulator holds what the invariants of R100 and R117 say: 0 at the start of a block,
else the unplaced bits of the byte the previous step read. -/
def State.CarryHolds (s : State) : Prop :=
  s.phase = .run →
    (s.pos = 0 → s.carry = 0) ∧
      (1 ≤ s.pos.toNat → opClass s.opl = .pack →
        ∃ v, s.inp.read (8 * s.blk + s.pos.toNat - 1) = some v ∧ s.carry = shl8 v (9 - s.pos.toNat)) ∧
      (1 ≤ s.pos.toNat → opClass s.opl = .unpack →
        ∃ v, s.inp.read (9 * s.blk + s.pos.toNat - 1) = some v ∧ s.carry = shl8 v (s.pos.toNat - 1))

/-- In RUN the bytes of `OUT` before the next one to be written have all been written (R52, R127). -/
def State.OutPrefixWritten (s : State) : Prop :=
  s.phase = .run →
    (opClass s.opl = .pack → s.OutWritten (9 * s.blk + s.pos.toNat)) ∧
      (opClass s.opl = .unpack → s.OutWritten (8 * s.blk + (s.pos.toNat - 1)))

/-- The invariant of the core. -/
def State.Inv (s : State) : Prop :=
  s.BuffersWf ∧ s.pos.toNat ≤ 8 ∧ s.ResultsAgree ∧ s.IdleAtRest ∧ s.RunInProgress ∧ s.CarryHolds ∧
    s.OutPrefixWritten

/-- The command can be executed: the core is IDLE, and every byte of `IN` the command reads has a value
(R125, R163, R167). -/
def State.Ready (i : Instr) (s : State) : Prop :=
  s.phase = .idle ∧ ∀ k, k < inLength (opClass (encode i)) s.len → (s.inp.read k).isSome = true

/-- What the host owns is as it was: the three ports and the input buffer (R25, R41). -/
def State.HostSideKept (s t : State) : Prop :=
  t.op = s.op ∧ t.len = s.len ∧ t.b = s.b ∧ t.inp = s.inp

/-- Error entry from `s` to `t` (R145): the offer is over, the result ports are written, the core is in IDLE,
and nothing else of the core has changed: neither buffer, no in-call register, no port of the host. -/
def State.ErrorEntry (e : Status) (s t : State) : Prop :=
  t.phase = .idle ∧ t.status = some e ∧ t.outLen = some 0 ∧ t.p = none ∧ t.offered = false ∧
    t.carry = s.carry ∧ t.pos = s.pos ∧ t.blk = s.blk ∧ t.nblk = s.nblk ∧ t.opl = s.opl ∧
    t.op = s.op ∧ t.len = s.len ∧ t.b = s.b ∧ t.inp = s.inp ∧ t.out = s.out

/-- Completion of a buffer command with STATUS OK (R129). -/
def State.BufferCompleted (l : Nat) (t : State) : Prop :=
  t.phase = .idle ∧ t.status = some .ok ∧ t.outLen = some l ∧ t.p = none

/-- The bytes of `OUT` from index `l` upward read as before (R46). -/
def State.OutKeptFrom (l : Nat) (s t : State) : Prop := ∀ a, l ≤ a → t.out.read a = s.out.read a

/-- What a pack command with mode `m` does (R93, R98). With a valid length, for an input buffer whose byte at
index `a` is `f a`, it leaves exactly the bytes of the closed form; with another length it raises
`InvalidLength`. -/
def PackOutput (i : Instr) (m : Bit) : Prop :=
  (∀ (s : State) (f : Nat → Byte), s.phase = .idle → s.len % 8 = 0 →
    (∀ a, a < s.len → s.inp.read a = some (f a)) →
    ∃ t, exec i s = .next t ∧ t.BufferCompleted (s.len + s.len / 8) ∧ s.HostSideKept t ∧
      s.OutKeptFrom (s.len + s.len / 8) t ∧
      ∀ k, k < s.len / 8 →
        t.out.read (9 * k) = some (f (8 * k)) ∧
        (∀ j, 1 ≤ j → j ≤ 7 → t.out.read (9 * k + j) = some
          (shl8 (f (8 * k + j - 1)) (9 - j) ||| bitAt (par m (f (8 * k + j - 1))) (8 - j) |||
            shr (f (8 * k + j)) j)) ∧
        t.out.read (9 * k + 8) = some
          (shl8 (f (8 * k + 7)) 1 ||| bitAt (par m (f (8 * k + 7))) 0)) ∧
  ∀ s : State, s.phase = .idle → s.len % 8 ≠ 0 →
    ∃ t, exec i s = .next t ∧ s.ErrorEntry .invalidLength t

/-- The same change made to the next state of an outcome, if it has one. -/
def mapNext (g : State → State) (o : Host.Outcome State Fault Refusal) :
    Host.Outcome State Fault Refusal :=
  match o with
  | .next t => .next (g t)
  | .fault f => .fault f
  | .refused r => .refused r

/-- The next state of an outcome, if it has one. -/
def nextOf (o : Host.Outcome State Fault Refusal) : Option State :=
  match o with
  | .next t => some t
  | .fault _ => none
  | .refused _ => none

end Sys2Proof.Machine
end

