-- ==== Sys2Proof/Certificates/Slice0/Obligations.lean ====
section
/-! DEFINITION. The statements for the provers: what the rules of the spec say the core does, over the
model. Each docstring names the rule it formalises and, where one is used, the log entry. -/

open Sys2Proof Sys2Proof.Machine

/-! ## Opcodes -/

/-- R61: the decoder gives each of the eight values of `OP` its row of the opcode map. A few opcodes
written out bit by bit. -/
def Obligations.DecodeMatchesOpcodeMap : Prop :=
  decode 0b000#3 = .parEven ∧ decode 0b001#3 = .parOdd ∧ decode 0b010#3 = .packEven ∧
    decode 0b011#3 = .packOdd ∧ decode 0b100#3 = .unpack ∧ decode 0b101#3 = .unpackAlias ∧
    decode 0b110#3 = .reserved110 ∧ decode 0b111#3 = .reserved111

/-- Decoding and encoding agree on every command and on every value of `OP` (R60, R61). -/
def Obligations.DecodeEncodeAgree : Prop :=
  (∀ i : Instr, decode (encode i) = i) ∧ ∀ op : OpWord, encode (decode op) = op

/-- R60, R62: `CLASS` is `OP[2:1]` and `MODE` is `OP[0]`, for every value of the port; and a number is an
opcode exactly when it fits the port (log 19, the model's choice). -/
def Obligations.OpcodeFieldsAndRange : Prop :=
  (∀ op : OpWord, (opMode op).toNat = op.toNat % 2 ∧
    (opClass op = .par ↔ op.toNat / 2 = 0) ∧ (opClass op = .pack ↔ op.toNat / 2 = 1) ∧
    (opClass op = .unpack ↔ op.toNat / 2 = 2) ∧ (opClass op = .reserved ↔ op.toNat / 2 = 3)) ∧
  ∀ w : Nat, decodeWord w = .error .bitsAboveOp ↔ 8 ≤ w

/-- R65: the codes of `STATUS`, and that 3 spells no status. -/
def Obligations.StatusCodes : Prop :=
  Status.ok.code = 0 ∧ Status.invalidLength.code = 1 ∧ Status.illegalCommand.code = 2 ∧
    (∀ st : Status, st.code ≠ 3 ∧ Status.ofCode st.code = some st) ∧ Status.ofCode 3 = none

/-! ## Reset -/

/-- R160: reset brings IDLE, zeroes the in-call registers, takes the values of the result ports and
touches neither buffer; the core's own state after power-on is the same. -/
def Obligations.ResetLeavesSpecValues : Prop :=
  (∀ s : State, s.resetEvent.phase = .idle ∧ s.resetEvent.carry = 0 ∧ s.resetEvent.pos = 0 ∧
    s.resetEvent.blk = 0 ∧ s.resetEvent.nblk = 0 ∧ s.resetEvent.opl = 0 ∧
    s.resetEvent.status = none ∧ s.resetEvent.outLen = none ∧ s.resetEvent.p = none ∧
    s.resetEvent.inp = s.inp ∧ s.resetEvent.out = s.out) ∧
  State.reset.phase = .idle ∧ State.reset.carry = 0 ∧ State.reset.pos = 0 ∧ State.reset.blk = 0 ∧
    State.reset.nblk = 0 ∧ State.reset.opl = 0 ∧ State.reset.status = none ∧
    State.reset.outLen = none ∧ State.reset.p = none

/-- R161: a reset during a command leaves no result: every read of a result port and of any byte of `OUT`
is a fault of the host, whatever the micro-steps had written. -/
def Obligations.ResetDuringCommandLeavesNoResult : Prop :=
  ∀ s : State, s.phase = .run →
    s.resetEvent.phase = .idle ∧
      s.resetEvent.hostReadStatus = .error .resultPortHasNoValue ∧
      s.resetEvent.hostReadOutLen = .error .resultPortHasNoValue ∧
      s.resetEvent.hostReadP = .error .resultPortHasNoValue ∧
      ∀ i, s.resetEvent.hostReadOut i = .error .outByteHasNoValue

/-! ## The parity predicate and its commands -/

/-- R80, R84: the count of set bits with the parity bit is even in mode Even and odd in mode Odd, the
bit with that property is unique, and the two predicates are complementary. -/
def Obligations.ParityBitMakesCountEvenOrOdd : Prop :=
  ∀ (v : Byte) (bit : Bit),
    ((popcount v + bit.toNat) % 2 = 0 ↔ bit = evenParity v) ∧
      ((popcount v + bit.toNat) % 2 = 1 ↔ bit = oddParity v) ∧
      oddParity v = evenParity v ^^^ 1

/-- R83: the predicate is the exclusive OR of the eight bits of the byte and the mode bit. -/
def Obligations.ParityIsXorOfBits : Prop :=
  ∀ (m : Bit) (v : Byte),
    par m v = v.extractLsb' 7 1 ^^^ v.extractLsb' 6 1 ^^^ v.extractLsb' 5 1 ^^^ v.extractLsb' 4 1 ^^^
      v.extractLsb' 3 1 ^^^ v.extractLsb' 2 1 ^^^ v.extractLsb' 1 1 ^^^ v.extractLsb' 0 1 ^^^ m

/-- R84: the predicate is linear, and flipping any one bit of the byte flips both parities. -/
def Obligations.ParityIsLinear : Prop :=
  (∀ a c : Byte, evenParity (a ^^^ c) = evenParity a ^^^ evenParity c) ∧
    ∀ (m : Bit) (v : Byte) (k : Nat), k < 8 → par m (v ^^^ bitAt 1 k) = par m v ^^^ 1

/-- R81: PAR.EVEN completes in IDLE for every byte and every value of the other ports, with `P` the number
of set bits of `B` modulo 2. -/
def Obligations.ParEvenResult : Prop :=
  decode 0b000#3 = .parEven ∧
  ∀ s : State, s.phase = .idle → ∃ t, exec .parEven s = .next t ∧
    (∃ bit, t.p = some bit ∧ bit.toNat = popcount s.b % 2) ∧ t.outLen = some 0 ∧
    t.status = some .ok ∧ s.HostSideKept t ∧ t.out = s.out

/-- R82: PAR.ODD completes in IDLE for every byte and every value of the other ports, with `P` one more
than the number of set bits of `B`, modulo 2. -/
def Obligations.ParOddResult : Prop :=
  decode 0b001#3 = .parOdd ∧
  ∀ s : State, s.phase = .idle → ∃ t, exec .parOdd s = .next t ∧
    (∃ bit, t.p = some bit ∧ bit.toNat = (popcount s.b + 1) % 2) ∧ t.outLen = some 0 ∧
    t.status = some .ok ∧ s.HostSideKept t ∧ t.out = s.out

/-! ## Errors -/

/-- R142: on a command that can be executed, `IllegalCommand` is raised exactly when the class is 3, and it
records nothing beyond the code: raised at the decode stage, it leaves nothing latched. -/
def Obligations.IllegalCommandExactly : Prop :=
  ∀ (i : Instr) (s : State), s.Ready i → ∃ t, exec i s = .next t ∧
    (t.status = some .illegalCommand ↔ (encode i).toNat / 2 = 3) ∧
    (t.status = some .illegalCommand → s.ErrorEntry .illegalCommand t)

/-- R141: on a command that can be executed, `InvalidLength` is raised by PACK.* exactly when `LEN` is not a
multiple of 8, by UNPACK (either opcode) exactly when it is not a multiple of 9, and by nothing else;
it needs no byte of `IN`. -/
def Obligations.InvalidLengthExactly : Prop :=
  (∀ (i : Instr) (s : State), s.Ready i → ∃ t, exec i s = .next t ∧
    (t.status = some .invalidLength ↔
      ((i = .packEven ∨ i = .packOdd) ∧ s.len % 8 ≠ 0) ∨
        ((i = .unpack ∨ i = .unpackAlias) ∧ s.len % 9 ≠ 0))) ∧
  ∀ (i : Instr) (s : State), s.phase = .idle →
    ((i = .packEven ∨ i = .packOdd) ∧ s.len % 8 ≠ 0) ∨
        ((i = .unpack ∨ i = .unpackAlias) ∧ s.len % 9 ≠ 0) →
      ∃ t, exec i s = .next t ∧ s.ErrorEntry .invalidLength t

/-- R64: a command with `OP = 110` or `OP = 111` raises `IllegalCommand`: it completes with that status and
length 0, and no buffer is touched. -/
def Obligations.ReservedRaiseIllegalCommand : Prop :=
  ∀ (i : Instr) (s : State), i = .reserved110 ∨ i = .reserved111 → s.phase = .idle →
    ∃ t, exec i s = .next t ∧ s.ErrorEntry .illegalCommand t

/-- R145: whatever the error, its entry writes only the result ports and `phase`: no byte of either buffer,
no in-call register; and it reads no byte of `IN`: with any other input buffer the outcome is the same. -/
def Obligations.ErrorEntryWritesOnlyResults : Prop :=
  ∀ (i : Instr) (s t : State) (e : Status), exec i s = .next t → t.status = some e → e ≠ .ok →
    s.ErrorEntry e t ∧ ∀ m : Memory, exec i { s with inp := m } = .next { t with inp := m }

/-- R146: after a command that failed, every command with any ports is executed exactly as if the failed
one had never been presented, the failed one's status included. -/
def Obligations.FailedCommandLeavesNoTrace : Prop :=
  ∀ (i j : Instr) (s t : State) (op : OpWord) (n : Nat) (v : Byte),
    exec i s = .next t → t.status ≠ some .ok →
      t.phase = .idle ∧ exec j (t.drivePorts op n v) = exec j (s.drivePorts op n v)

/-! ## The packer -/

/-- R96, with R93 and R98: PACK.EVEN, `OP = 010`, by every byte of its output, and nothing beyond it; and its
one exception. -/
def Obligations.PackEvenOutput : Prop := decode 0b010#3 = .packEven ∧ PackOutput .packEven 0

/-- R97, with R93 and R98: PACK.ODD, `OP = 011`, by every byte of its output, and nothing beyond it; and its
one exception. -/
def Obligations.PackOddOutput : Prop := decode 0b011#3 = .packOdd ∧ PackOutput .packOdd 1

/-- R66: in stream order the packed buffer is the sequence of 9-bit symbols, raw byte first, bit 7 first,
then its parity bit; for a whole buffer, whose symbols follow one another across blocks. -/
def Obligations.PackedStreamIsSymbols : Prop :=
  ∀ (m : Bit) (raw : List Byte), raw.length % 8 = 0 → ∀ (i : Nat) (h : i < raw.length),
    (∀ t, t < 8 → streamBit (packBytes m raw) (9 * i + t) = some (raw[i].getLsbD (7 - t))) ∧
      streamBit (packBytes m raw) (9 * i + 8) = some (decide (par m raw[i] = 1))

/-- R66: an encoded block as one 72-bit number is the sum of its symbols, each in its place. -/
def Obligations.PackedBlockAsNumber : Prop :=
  ∀ (m : Bit) (r0 r1 r2 r3 r4 r5 r6 r7 : Byte),
    bigEndian (packBlock m r0 r1 r2 r3 r4 r5 r6 r7) =
      (2 * r0.toNat + (par m r0).toNat) * 2 ^ 63 + (2 * r1.toNat + (par m r1).toNat) * 2 ^ 54 +
      (2 * r2.toNat + (par m r2).toNat) * 2 ^ 45 + (2 * r3.toNat + (par m r3).toNat) * 2 ^ 36 +
      (2 * r4.toNat + (par m r4).toNat) * 2 ^ 27 + (2 * r5.toNat + (par m r5).toNat) * 2 ^ 18 +
      (2 * r6.toNat + (par m r6).toNat) * 2 ^ 9 + (2 * r7.toNat + (par m r7).toNat)

/-- R95: the two modes differ in exactly the eight parity positions of every block. -/
def Obligations.ModesDifferInParityPositionsOnly : Prop :=
  ∀ r0 r1 r2 r3 r4 r5 r6 r7 : Byte,
    packBlock 1 r0 r1 r2 r3 r4 r5 r6 r7 =
      List.zipWith (· ^^^ ·) (packBlock 0 r0 r1 r2 r3 r4 r5 r6 r7)
        [0x00#8, 0x80#8, 0x40#8, 0x20#8, 0x10#8, 0x08#8, 0x04#8, 0x02#8, 0x01#8]

/-- R95: packing loses nothing: for each mode, two raw buffers of whole blocks with the same packed buffer
are equal. -/
def Obligations.PackIsInjective : Prop :=
  ∀ (m : Bit) (x y : List Byte), x.length % 8 = 0 → y.length % 8 = 0 →
    packBytes m x = packBytes m y → x = y

/-- R99: length law, empty buffer and block independence of the packer. -/
def Obligations.PackLengthAndConcatenation : Prop :=
  ∀ (m : Bit) (x y : List Byte), x.length % 8 = 0 → y.length % 8 = 0 →
    (packBytes m x).length = x.length + x.length / 8 ∧ packBytes m [] = [] ∧
      packBytes m (x ++ y) = packBytes m x ++ packBytes m y

/-! ## The unpacker -/

/-- R113, with R111 and R114: what UNPACK leaves, by either opcode, for an input buffer whose byte at index
`a` is `f a`: every byte of its output, and nothing beyond it; and its one exception. -/
def Obligations.UnpackOutput : Prop :=
  decode 0b100#3 = .unpack ∧ decode 0b101#3 = .unpackAlias ∧
  (∀ (i : Instr) (s : State) (f : Nat → Byte), i = .unpack ∨ i = .unpackAlias → s.phase = .idle →
    s.len % 9 = 0 → (∀ a, a < s.len → s.inp.read a = some (f a)) →
    ∃ t, exec i s = .next t ∧ t.BufferCompleted (s.len - s.len / 9) ∧ s.HostSideKept t ∧
      s.OutKeptFrom (s.len - s.len / 9) t ∧
      ∀ k, k < s.len / 9 → ∀ j, j ≤ 7 →
        t.out.read (8 * k + j) = some (shl8 (f (9 * k + j)) j ||| shr (f (9 * k + j + 1)) (8 - j))) ∧
  ∀ (i : Instr) (s : State), i = .unpack ∨ i = .unpackAlias → s.phase = .idle → s.len % 9 ≠ 0 →
    ∃ t, exec i s = .next t ∧ s.ErrorEntry .invalidLength t

/-- R64: `OP = 101` executes exactly as `100`: the same stops, and next states that differ in the latched
opcode alone. -/
def Obligations.UnpackAliasExecutesAsUnpack : Prop :=
  ∀ s : State, s.phase = .idle →
    (∀ r, exec .unpack s = .refused r ↔ exec .unpackAlias s = .refused r) ∧
    (∀ f, exec .unpack s ≠ .fault f ∧ exec .unpackAlias s ≠ .fault f) ∧
    ∀ t, exec .unpack s = .next t → ∃ u, exec .unpackAlias s = .next u ∧ { u with opl := t.opl } = t

/-- R111: raw byte `i` of a block is the 9-bit symbol `i` of the block's number without its last bit. -/
def Obligations.UnpackedBlockFromNumber : Prop :=
  ∀ (e0 e1 e2 e3 e4 e5 e6 e7 e8 : Byte) (i : Nat), i < 8 →
    ∃ r, (unpackBlock e0 e1 e2 e3 e4 e5 e6 e7 e8)[i]? = some r ∧
      r.toNat = bigEndian [e0, e1, e2, e3, e4, e5, e6, e7, e8] / 2 ^ (9 * (7 - i)) % 512 / 2

/-- R112: two encoded buffers that differ in parity positions only unpack to the same bytes. -/
def Obligations.UnpackIgnoresParityBits : Prop :=
  ∀ x y : List Byte, x.length = y.length →
    (∀ (a : Nat) (hx : a < x.length) (hy : a < y.length),
      x[a] &&& ~~~(parMask (a % 9)) = y[a] &&& ~~~(parMask (a % 9))) →
    unpackBytes x = unpackBytes y

/-- R118: length law, empty buffer and block independence of the unpacker. -/
def Obligations.UnpackLengthAndConcatenation : Prop :=
  ∀ x y : List Byte, x.length % 9 = 0 → y.length % 9 = 0 →
    (unpackBytes x).length = x.length - x.length / 9 ∧ unpackBytes [] = [] ∧
      unpackBytes (x ++ y) = unpackBytes x ++ unpackBytes y

/-- R115: unpacking what either mode packed gives the raw buffer back, and the lengths agree: the packed buffer
is a multiple of 9 long and unpacks to the raw length. -/
def Obligations.UnpackAfterPackIsIdentity : Prop :=
  ∀ (m : Bit) (raw : List Byte), raw.length % 8 = 0 →
    unpackBytes (packBytes m raw) = raw ∧ (packBytes m raw).length % 9 = 0 ∧
      unpackLen (packBytes m raw).length = raw.length

/-- R116: packing what was unpacked gives the encoded buffer back exactly when every parity bit of it is the
parity, in that mode, of the raw byte before it. -/
def Obligations.PackAfterUnpackExactly : Prop :=
  ∀ (m : Bit) (x : List Byte), x.length % 9 = 0 →
    (packBytes m (unpackBytes x) = x ↔
      ∀ k, k < x.length / 9 → ∀ j, 1 ≤ j → j ≤ 8 → ∃ e r,
        x[9 * k + j]? = some e ∧ (unpackBytes x)[8 * k + j - 1]? = some r ∧
          (e.getLsbD (8 - j) = true ↔ par m r = 1))

/-- R115 on the machine: a buffer packed by either command, its output placed in the input buffer of any
idle core and unpacked by either opcode, comes back whole, with the length it had. -/
def Obligations.RoundTripOnTheMachine : Prop :=
  ∀ (i j : Instr) (s t u : State), i = .packEven ∨ i = .packOdd → j = .unpack ∨ j = .unpackAlias →
    exec i s = .next t → t.status = some .ok → u.phase = .idle → some u.len = t.outLen →
    (∀ a, a < u.len → u.inp.read a = t.out.read a) →
    ∃ v, exec j u = .next v ∧ v.status = some .ok ∧ v.outLen = some s.len ∧
      ∀ a, a < s.len → v.out.read a = s.inp.read a

/-! ## Layout and step constants -/

/-- R68: at every step the three masks tile the byte, and each constant has the value of its formula. -/
def Obligations.StepMasksTileTheByte : Prop :=
  (∀ j, j ≤ 8 →
    (carryMask j).toNat + (parMask j).toNat + (curMask j).toNat = 0xFF ∧
      carryMask j &&& parMask j = 0 ∧ carryMask j &&& curMask j = 0 ∧ parMask j &&& curMask j = 0) ∧
  (∀ j, 1 ≤ j → j ≤ 8 →
    carryN j = j - 1 ∧ carryMask j = shl8 0xFF#8 (9 - j) ∧ parPos j = some (8 - j) ∧
      (parMask j).toNat = 2 ^ (8 - j)) ∧
  ∀ j, j ≤ 7 →
    curShr j = some j ∧ curMask j = shr 0xFF#8 j ∧ saveShl j = some (8 - j) ∧ saveN j = some j

/-- R68: a byte of the packed block takes its carried, parity and current bits through the masks of its
step, the last byte too, which has no current bits; and the unpacker reads them through the same masks. -/
def Obligations.StepMasksSelectTheComponents : Prop :=
  (∀ (m : Bit) (j : Nat) (prev cur : Byte), 1 ≤ j → j ≤ 7 →
    encByte m j prev cur &&& carryMask j = shl8 prev (9 - j) ∧
      encByte m j prev cur &&& parMask j = bitAt (par m prev) (8 - j) ∧
      encByte m j prev cur &&& curMask j = shr cur j) ∧
  (∀ (m : Bit) (prev : Byte),
    encLast m prev &&& carryMask 8 = shl8 prev 1 ∧ encLast m prev &&& parMask 8 = bitAt (par m prev) 0 ∧
      encLast m prev &&& curMask 8 = 0) ∧
  ∀ (j : Nat) (e next : Byte), j ≤ 7 →
    decByte j e next = (shl8 (e &&& curMask j) j ||| shr (next &&& carryMask (j + 1)) (8 - j))

/-- R42: the stream bits of a buffer are the bits of its big-endian numeral, most significant first. -/
def Obligations.StreamBitsAreTheNumeral : Prop :=
  ∀ (bytes : List Byte) (s : Nat), s < 8 * bytes.length →
    streamBit bytes s = some ((bigEndian bytes).testBit (8 * bytes.length - 1 - s))

/-! ## One command -/

/-- R129, R145: every command that can be executed completes: it answers a next state in IDLE, with the
status of the table of completion, the output length of the command and all of that output written.
Named for all eight constructors. -/
def Obligations.EveryReadyCommandCompletes : Prop :=
  ∀ (i : Instr) (s : State), s.Ready i → ∃ t, exec i s = .next t ∧ t.phase = .idle ∧
    t.status = some (if (encode i).toNat / 2 = 3 then .illegalCommand
      else if lengthOk (opClass (encode i)) s.len then .ok else .invalidLength) ∧
    t.outLen = some (outLength (opClass (encode i)) s.len) ∧
    t.OutWritten (outLength (opClass (encode i)) s.len) ∧
    (t.p.isSome = true ↔ i = .parEven ∨ i = .parOdd)

/-- R167, D15 and log 7: a command that must read a byte of `IN` without a value has no meaning, and
otherwise an idle core never stops. -/
def Obligations.MissingInputIsRefused : Prop :=
  ∀ (i : Instr) (s : State), s.phase = .idle →
    ((∃ k, k < inLength (opClass (encode i)) s.len ∧ s.inp.read k = none) ↔
      exec i s = .refused .inByteHasNoValue) ∧
    (∀ f, exec i s ≠ .fault f) ∧ ∀ r, exec i s = .refused r → r = .inByteHasNoValue

/-- R125, R169, D15 and log 12: in RUN no command is accepted, and an offer there is refused. -/
def Obligations.NoCommandIsAcceptedInRun : Prop :=
  ∀ (i : Instr) (s : State) (o : Offer), s.phase = .run →
    exec i s = .refused .commandOfferedInRun ∧ s.present o = .refused .commandOfferedInRun ∧
      (s.offered = true → step s = .refused .commandOfferedInRun)

/-- The frame of every command (R41, R46): the ports `OP`, `LEN`, `B` and the input buffer are unchanged,
and so is every byte of `OUT` but the `outLength` bytes from index 0 that the command writes. -/
def Obligations.CommandFrame : Prop :=
  ∀ (i : Instr) (s t : State), exec i s = .next t →
    s.HostSideKept t ∧ t.phase = .idle ∧
      s.OutKeptFrom (outLength (opClass (encode i)) s.len) t

/-- The in-call registers after a command that completes with STATUS OK (R126, R127, and log 9 for `blk` of
the parity commands and for what stands in `carry`, `pos` and `blk` after a buffer command). -/
def Obligations.InCallRegistersAfterCommand : Prop :=
  ∀ (i : Instr) (s t : State), exec i s = .next t → t.status = some .ok →
    t.opl = encode i ∧ t.nblk = blockCount (opClass (encode i)) s.len ∧ t.blk = t.nblk ∧
      t.offered = false ∧
      (i = .parEven ∨ i = .parOdd → t.carry = s.carry ∧ t.pos = s.pos) ∧
      (¬ (i = .parEven ∨ i = .parOdd) → t.carry = 0 ∧ t.pos = 0)

/-- R20: the result of a command is a function of its opcode, its operands and its input bytes: two idle
cores that agree on `LEN`, `B` and the bytes read, whatever else they hold, give the same result. -/
def Obligations.ResultDependsOnInputsOnly : Prop :=
  ∀ (i : Instr) (s t s' : State), exec i s = .next s' → t.phase = .idle → t.len = s.len → t.b = s.b →
    (∀ k, k < inLength (opClass (encode i)) s.len → t.inp.read k = s.inp.read k) →
    ∃ t' r, exec i t = .next t' ∧ s'.result = some r ∧ t'.result = some r

/-- R8, R98: with lengths of `w` bits the output length fits in `w + 1` bits. -/
def Obligations.OutputLengthFitsOneMoreBit : Prop :=
  ∀ (c : CmdClass) (w n : Nat), n < 2 ^ w → outLength c n < 2 ^ (w + 1)

/-! ## The step, and the micro-step machine -/

/-- A step runs the decoded command (R125): in IDLE an offered command is executed. The other three clauses are
the model's choice: with nothing offered the core waits (log 2), in RUN a micro-step is taken (log 1), and
`withFetchWord` stands for the host's presentation (log 3). -/
def Obligations.StepRunsTheDecodedCommand : Prop :=
  (∀ s : State, s.phase = .idle → s.offered = true → step s = exec (decode s.op) s) ∧
    (∀ s : State, s.phase = .idle → s.offered = false → step s = .next s) ∧
    (∀ s : State, s.phase = .run → s.offered = false → step s = microStep s) ∧
    ∀ (s : State) (i : Instr) (nbits : Nat), 3 ≤ nbits →
      step (s.withFetchWord nbits (encode i).toNat) = exec i (s.withFetchWord nbits (encode i).toNat)

/-- R126: at micro-step level the acceptance of a buffer command of valid length enters RUN, latches the
opcode and the block count, starts a block, and takes the values of the result ports. -/
def Obligations.AcceptanceLatchesTheCommand : Prop :=
  ∀ (i : Instr) (s : State), s.phase = .idle → opClass (encode i) = .pack ∨ opClass (encode i) = .unpack →
    lengthOk (opClass (encode i)) s.len = true → ∃ t, microAccept i s = .next t ∧ t.phase = .run ∧
      t.opl = encode i ∧ t.nblk = blockCount (opClass (encode i)) s.len ∧ t.blk = 0 ∧ t.pos = 0 ∧
      t.carry = 0 ∧ t.status = none ∧ t.outLen = none ∧ t.p = none ∧ s.HostSideKept t ∧ t.out = s.out

/-- R100: one micro-step of the packer, by the three cases of its position. -/
def Obligations.PackMicroStep : Prop :=
  ∀ s : State, s.phase = .run → s.offered = false → opClass s.opl = .pack → s.blk < s.nblk →
    (s.pos.toNat = 0 → ∀ cur, s.inp.read (8 * s.blk) = some cur →
      step s = .next { s with
        out := s.out.write (9 * s.blk) cur, carry := shl8 cur 8, pos := 1 }) ∧
    (∀ j, 1 ≤ j → j ≤ 7 → s.pos.toNat = j → ∀ prev cur, s.inp.read (8 * s.blk + j - 1) = some prev →
      s.inp.read (8 * s.blk + j) = some cur →
      step s = .next { s with
        out := s.out.write (9 * s.blk + j) (s.carry ||| bitAt (par (opMode s.opl) prev) (8 - j) ||| shr cur j)
        carry := shl8 cur (8 - j), pos := BitVec.ofNat 4 (j + 1) }) ∧
    (s.pos.toNat = 8 → ∀ prev, s.inp.read (8 * s.blk + 7) = some prev →
      step s = .next { s with
        out := s.out.write (9 * s.blk + 8) (s.carry ||| bitAt (par (opMode s.opl) prev) 0)
        carry := 0, pos := 0, blk := s.blk + 1 })

/-- R117: one micro-step of the unpacker, by the three cases of its position. -/
def Obligations.UnpackMicroStep : Prop :=
  ∀ s : State, s.phase = .run → s.offered = false → opClass s.opl = .unpack → s.blk < s.nblk →
    ∀ (i : Nat) (e : Byte), s.pos.toNat = i → s.inp.read (9 * s.blk + i) = some e →
    (i = 0 → step s = .next { s with carry := e, pos := 1 }) ∧
    (1 ≤ i → i ≤ 7 → step s = .next { s with
      out := s.out.write (8 * s.blk + i - 1) (s.carry ||| shr e (9 - i))
      carry := shl8 e i, pos := BitVec.ofNat 4 (i + 1) }) ∧
    (i = 8 → step s = .next { s with
      out := s.out.write (8 * s.blk + 7) (s.carry ||| shr e 1)
      carry := 0, pos := 0, blk := s.blk + 1 })

/-- R51, R125: a change of the ports after acceptance has no effect on the command in progress: each step
in RUN does the same with any values on them. -/
def Obligations.PortsAreSampledOnce : Prop :=
  ∀ (s : State) (op : OpWord) (n : Nat) (v : Byte), s.phase = .run →
    step (s.drivePorts op n v) = mapNext (fun t => t.drivePorts op n v) (step s)

/-- R101, R46: no read past the block: with the byte of `IN` after the block changed in any way, the last
step of a packed block gives the same outcome but for that byte. -/
def Obligations.LastPackStepReadsNoNinthByte : Prop :=
  ∀ (s : State) (w : Byte), s.phase = .run → s.offered = false → opClass s.opl = .pack → s.pos.toNat = 8 →
    step { s with inp := s.inp.write (8 * s.blk + 8) w } =
      mapNext (fun t => { t with inp := s.inp.write (8 * s.blk + 8) w }) (step s)

/-- R13, R100, R117, R127, R172, and log 9 for the in-call registers, of which R13 does not speak: run from the offer of a command, the micro-step machine reaches exactly the
outcome of the transaction, the same next state or the same refusal: after one step for a parity command
or an error, and for a buffer command after acceptance, nine micro-steps a block, and completion. -/
def Obligations.MicroStepsRefineTheTransaction : Prop :=
  ∀ s : State, s.phase = .idle → s.offered = true →
    microRun
      (if (opClass s.op = .pack ∨ opClass s.op = .unpack) ∧ lengthOk (opClass s.op) s.len = true then
        9 * blockCount (opClass s.op) s.len + 2 else 1) s = exec (decode s.op) s

/-- R52, R128, R150: the blocks of a buffer command computed in any order give the output of the
command, byte for byte. -/
def Obligations.BlocksInAnyOrder : Prop :=
  (∀ (i : Instr) (m : Bit) (s t : State) (ks : List Nat),
    (i = .packEven ∧ m = 0) ∨ (i = .packOdd ∧ m = 1) → exec i s = .next t → t.status = some .ok →
    ks.Perm (List.range (s.len / 8)) →
    ∃ out, packBlocksInOrder m s.inp ks s.out = some out ∧ ∀ a, out.read a = t.out.read a) ∧
  ∀ (i : Instr) (s t : State) (ks : List Nat),
    i = .unpack ∨ i = .unpackAlias → exec i s = .next t → t.status = some .ok →
    ks.Perm (List.range (s.len / 9)) →
    ∃ out, unpackBlocksInOrder s.inp ks s.out = some out ∧ ∀ a, out.read a = t.out.read a

/-! ## Invariants -/

/-- The invariant holds at reset. -/
def Obligations.InvariantHoldsAtReset : Prop := State.reset.Inv

/-- Every step of the core keeps the invariant: canonical buffers, a legal `pos`, result ports that agree,
written output, and working registers as R22, R23, R24, R100, R117 and R127 say. What they hold in IDLE after
a command, `blk = nblk` after a parity command among it, is the model's choice (log 9). -/
def Obligations.EveryStepKeepsInvariant : Prop :=
  ∀ s t : State, s.Inv → step s = .next t → t.Inv

/-- Every step of the micro-step machine, acceptance among them, keeps the invariant. What the working registers
hold in IDLE after a parity command is the model's choice (log 9). -/
def Obligations.EveryMicroMachineStepKeepsInvariant : Prop :=
  ∀ s t : State, s.Inv → stepMicro s = .next t → t.Inv

/-- Every move of the host and the event reset keep the invariant. -/
def Obligations.HostMovesKeepInvariant : Prop :=
  ∀ s : State, s.Inv →
    (∀ o t, s.present o = .next t → t.Inv) ∧ (∀ i v t, s.hostWriteIn i v = .next t → t.Inv) ∧
      (∀ i v t, s.hostWriteOut i v = .next t → t.Inv) ∧ s.drop.Inv ∧
      (∀ op n v, (s.drivePorts op n v).Inv) ∧ (∀ op n v t, s.hostDrivePorts op n v = .next t → t.Inv) ∧
      s.resetEvent.Inv

/-- R46, R148: no state of the invariant stops a micro-step with a fault: the faults of `microStep` are
reached by no run. -/
def Obligations.NoFaultUnderInvariant : Prop :=
  ∀ (s : State) (f : Fault), s.Inv → step s ≠ .fault f ∧ stepMicro s ≠ .fault f

/-! ## The host's side -/

/-- R26, R46, R49, R166, U8, U9: a result port without a value cannot be read, a port with one reads as it
stands; a byte of `OUT` can be read exactly below `OUTLEN` after STATUS OK, and the byte read is the one
that stands in `OUT`; and in RUN nothing can be read. -/
def Obligations.HostReadsOnlyValues : Prop :=
  ∀ s : State, s.Inv →
    (∀ v, s.hostReadStatus = .ok v ↔ s.status = some v) ∧
    (∀ v, s.hostReadOutLen = .ok v ↔ s.outLen = some v) ∧ (∀ v, s.hostReadP = .ok v ↔ s.p = some v) ∧
    (∀ i, (∃ v, s.hostReadOut i = .ok v) ↔ ∃ l, s.status = some .ok ∧ s.outLen = some l ∧ i < l) ∧
    (∀ i v, s.hostReadOut i = .ok v ↔
      ∃ l, s.status = some .ok ∧ s.outLen = some l ∧ i < l ∧ s.out.read i = some v) ∧
    (s.phase = .run → s.hostReadStatus = .error .resultPortHasNoValue ∧
      s.hostReadOutLen = .error .resultPortHasNoValue ∧ s.hostReadP = .error .resultPortHasNoValue ∧
      ∀ i, s.hostReadOut i = .error .outByteHasNoValue)

/-- R163 to R170: an offer is taken exactly when the core is idle with no offer standing and the duties on
length, room and storage are kept; then the ports and the bytes of `IN` are as the host gave them. The
model's choice: that a broken duty is refused (logs 8, 12, 13), that a command which ignores `LEN` owes no
count (log 8), that an invalid length owes no room (log 13), and that the places of the buffers are compared
in one number space (log 21). -/
def Obligations.OfferIsTakenWhenDutiesAreKept : Prop :=
  ∀ (o : Offer) (s : State),
    ((∃ t, s.present o = .next t) ↔ s.phase = .idle ∧ s.offered = false ∧ o.WellFormed) ∧
    ∀ t, s.present o = .next t → t.op = o.op ∧ t.len = o.len ∧ t.b = o.b ∧ t.offered = true ∧
      t.inp.readList 0 o.bytes.length = some o.bytes ∧ t.out = s.out

/-- R164, R166: between offer and completion the host cannot write a byte `IN[0..N-1]` of the command, valid or
not, and between acceptance and completion it cannot write `OUT` (refusals: log 16). While an offer stands
it cannot drive the ports either (the model's choice, log 20); in IDLE with none standing, and in RUN, it
can. -/
def Obligations.HostWritesAreHeldOff : Prop :=
  ∀ (s : State) (i : Nat) (v : Byte),
    (s.phase = .idle → s.offered = true → i < bufferLength (opClass s.op) s.len →
      s.hostWriteIn i v = .refused .inWrittenDuringCommand) ∧
    (s.phase = .run → s.hostWriteOut i v = .refused .outWrittenDuringCommand) ∧
    (s.phase = .run → opClass s.opl = .pack → i < 8 * s.nblk →
      s.hostWriteIn i v = .refused .inWrittenDuringCommand) ∧
    (s.phase = .run → opClass s.opl = .unpack → i < 9 * s.nblk →
      s.hostWriteIn i v = .refused .inWrittenDuringCommand) ∧
    ∀ op n, (s.phase = .idle → s.offered = true →
        s.hostDrivePorts op n v = .refused .portsDrivenDuringOffer) ∧
      (s.phase = .run ∨ s.offered = false → s.hostDrivePorts op n v = .next (s.drivePorts op n v))

/-- R20, R129: a well-formed offer presented to an idle core is executed to the result that its own opcode,
operands and input bytes give, and leaves the core ready for the next. Well-formed offers are the model's:
`LEN` counts the bytes of a buffer command only (log 8), an invalid length owes no room (log 13), and the
places of the buffers are compared in one number space (log 21). -/
def Obligations.OfferGivesItsOwnResult : Prop :=
  ∀ (o : Offer) (s : State), o.WellFormed → s.phase = .idle → s.offered = false →
    ∃ t, runOffer o s = .next t ∧ t.result = some (resultAlone o) ∧ t.phase = .idle ∧ t.offered = false

/-- R132: the result of a run is the list of the results of its commands, each taken alone, from whatever
idle state the run begins. Well-formed offers are the model's (logs 8, 13, 21). -/
def Obligations.RunResultIsListOfResultsAlone : Prop :=
  ∀ (os : List Offer) (s : State), (∀ o ∈ os, o.WellFormed) → s.phase = .idle → s.offered = false →
    runOffers os s = some (os.map resultAlone)

/-- R70, R71: each assembly line is exactly one command, with the opcode, the length and the bytes of its row,
and as an offer it keeps the host's duties (its room and places are the model's choice, log 17). -/
def Obligations.AssemblyLinesAreCommands : Prop :=
  (∀ bs : List Byte, (AsmLine.odd bs).offer.op = 0b011#3 ∧ (AsmLine.even bs).offer.op = 0b010#3 ∧
    (AsmLine.remove bs).offer.op = 0b100#3 ∧ (AsmLine.odd bs).offer.bytes = bs ∧
    (AsmLine.even bs).offer.bytes = bs ∧ (AsmLine.remove bs).offer.bytes = bs) ∧
  (∀ h : Byte, (AsmLine.parOdd h).offer.op = 0b001#3 ∧ (AsmLine.parEven h).offer.op = 0b000#3 ∧
    (AsmLine.parOdd h).offer.b = h ∧ (AsmLine.parEven h).offer.b = h) ∧
  ∀ l : AsmLine, l.offer.len = l.offer.bytes.length ∧ l.offer.WellFormed
end

