-- ==== Sys2Proof/Laws/Blocks.lean ====
section
/-! SUPPORT. Buffers as sequences of blocks: the induction over whole blocks, and what packing and
unpacking do to the first block and the rest. -/

namespace Sys2Proof.Machine

/-- Induction over a raw buffer of whole blocks. -/
theorem rawBlocks_induction {P : List Byte → Prop} (nil : P [])
    (block : ∀ r0 r1 r2 r3 r4 r5 r6 r7 rest, rest.length % 8 = 0 → P rest →
      P (r0 :: r1 :: r2 :: r3 :: r4 :: r5 :: r6 :: r7 :: rest)) :
    ∀ raw : List Byte, raw.length % 8 = 0 → P raw
  | [], _ => nil
  | r0 :: r1 :: r2 :: r3 :: r4 :: r5 :: r6 :: r7 :: rest, h =>
    have h' : rest.length % 8 = 0 := by simp only [List.length_cons] at h; omega
    block r0 r1 r2 r3 r4 r5 r6 r7 rest h' (rawBlocks_induction nil block rest h')
  | [_], h => by simp at h
  | [_, _], h => by simp at h
  | [_, _, _], h => by simp at h
  | [_, _, _, _], h => by simp at h
  | [_, _, _, _, _], h => by simp at h
  | [_, _, _, _, _, _], h => by simp at h
  | [_, _, _, _, _, _, _], h => by simp at h

/-- Induction over an encoded buffer of whole blocks. -/
theorem encBlocks_induction {P : List Byte → Prop} (nil : P [])
    (block : ∀ e0 e1 e2 e3 e4 e5 e6 e7 e8 rest, rest.length % 9 = 0 → P rest →
      P (e0 :: e1 :: e2 :: e3 :: e4 :: e5 :: e6 :: e7 :: e8 :: rest)) :
    ∀ enc : List Byte, enc.length % 9 = 0 → P enc
  | [], _ => nil
  | e0 :: e1 :: e2 :: e3 :: e4 :: e5 :: e6 :: e7 :: e8 :: rest, h =>
    have h' : rest.length % 9 = 0 := by simp only [List.length_cons] at h; omega
    block e0 e1 e2 e3 e4 e5 e6 e7 e8 rest h' (encBlocks_induction nil block rest h')
  | [_], h => by simp at h
  | [_, _], h => by simp at h
  | [_, _, _], h => by simp at h
  | [_, _, _, _], h => by simp at h
  | [_, _, _, _, _], h => by simp at h
  | [_, _, _, _, _, _], h => by simp at h
  | [_, _, _, _, _, _, _], h => by simp at h
  | [_, _, _, _, _, _, _, _], h => by simp at h

@[simp] theorem packBytes_nil (m : Bit) : packBytes m [] = [] := rfl

/-- The first block is packed on its own, and the rest after it. -/
@[simp] theorem packBytes_block (m : Bit) (r0 r1 r2 r3 r4 r5 r6 r7 : Byte) (rest : List Byte) :
    packBytes m (r0 :: r1 :: r2 :: r3 :: r4 :: r5 :: r6 :: r7 :: rest) =
      packBlock m r0 r1 r2 r3 r4 r5 r6 r7 ++ packBytes m rest := rfl

@[simp] theorem length_packBlock (m : Bit) (r0 r1 r2 r3 r4 r5 r6 r7 : Byte) :
    (packBlock m r0 r1 r2 r3 r4 r5 r6 r7).length = 9 := rfl

@[simp] theorem unpackBytes_nil : unpackBytes [] = [] := rfl

/-- The first block is unpacked on its own, and the rest after it. -/
@[simp] theorem unpackBytes_block (e0 e1 e2 e3 e4 e5 e6 e7 e8 : Byte) (rest : List Byte) :
    unpackBytes (e0 :: e1 :: e2 :: e3 :: e4 :: e5 :: e6 :: e7 :: e8 :: rest) =
      unpackBlock e0 e1 e2 e3 e4 e5 e6 e7 e8 ++ unpackBytes rest := rfl

@[simp] theorem length_unpackBlock (e0 e1 e2 e3 e4 e5 e6 e7 e8 : Byte) :
    (unpackBlock e0 e1 e2 e3 e4 e5 e6 e7 e8).length = 8 := rfl

/-- Nine bytes come out for every eight that go in. -/
theorem length_packBytes (m : Bit) (raw : List Byte) (h : raw.length % 8 = 0) :
    (packBytes m raw).length = 9 * (raw.length / 8) := by
  refine rawBlocks_induction (P := fun raw => (packBytes m raw).length = 9 * (raw.length / 8)) rfl ?_ raw h
  intro r0 r1 r2 r3 r4 r5 r6 r7 rest h' ih
  simp only [packBytes_block, List.length_append, length_packBlock, ih, List.length_cons]
  omega

/-- Eight bytes come out for every nine that go in. -/
theorem length_unpackBytes (enc : List Byte) (h : enc.length % 9 = 0) :
    (unpackBytes enc).length = 8 * (enc.length / 9) := by
  refine encBlocks_induction (P := fun enc => (unpackBytes enc).length = 8 * (enc.length / 9)) rfl ?_ enc h
  intro e0 e1 e2 e3 e4 e5 e6 e7 e8 rest h' ih
  simp only [unpackBytes_block, List.length_append, length_unpackBlock, ih, List.length_cons]
  omega

/-- The blocks of a packed buffer, by index: block `k` is the packing of raw block `k` alone. -/
theorem packBytes_take_drop (m : Bit) (raw : List Byte) (h : raw.length % 8 = 0) (k : Nat) :
    ((packBytes m raw).drop (9 * k)).take 9 = packBytes m ((raw.drop (8 * k)).take 8) := by
  induction k generalizing raw with
  | zero =>
    revert h
    refine fun h => rawBlocks_induction
      (P := fun raw => ((packBytes m raw).drop (9 * 0)).take 9 = packBytes m ((raw.drop (8 * 0)).take 8))
      rfl ?_ raw h
    intro r0 r1 r2 r3 r4 r5 r6 r7 rest h' ih
    simp [packBlock]
  | succ k ih =>
    match raw, h with
    | [], _ => simp
    | r0 :: r1 :: r2 :: r3 :: r4 :: r5 :: r6 :: r7 :: rest, h =>
      have h' : rest.length % 8 = 0 := by simp only [List.length_cons] at h; omega
      have := ih rest h'
      rw [show 9 * (k + 1) = 9 * k + 9 by omega, show 8 * (k + 1) = 8 * k + 8 by omega]
      simpa [packBlock] using this
    | [_], h => simp at h
    | [_, _], h => simp at h
    | [_, _, _], h => simp at h
    | [_, _, _, _], h => simp at h
    | [_, _, _, _, _], h => simp at h
    | [_, _, _, _, _, _], h => simp at h
    | [_, _, _, _, _, _, _], h => simp at h

/-- The blocks of an unpacked buffer, by index: block `k` is the unpacking of encoded block `k` alone. -/
theorem unpackBytes_take_drop (enc : List Byte) (h : enc.length % 9 = 0) (k : Nat) :
    ((unpackBytes enc).drop (8 * k)).take 8 = unpackBytes ((enc.drop (9 * k)).take 9) := by
  induction k generalizing enc with
  | zero =>
    refine encBlocks_induction
      (P := fun enc => ((unpackBytes enc).drop (8 * 0)).take 8 = unpackBytes ((enc.drop (9 * 0)).take 9))
      rfl ?_ enc h
    intro e0 e1 e2 e3 e4 e5 e6 e7 e8 rest h' ih
    simp [unpackBlock]
  | succ k ih =>
    match enc, h with
    | [], _ => simp
    | e0 :: e1 :: e2 :: e3 :: e4 :: e5 :: e6 :: e7 :: e8 :: rest, h =>
      have h' : rest.length % 9 = 0 := by simp only [List.length_cons] at h; omega
      have := ih rest h'
      rw [show 9 * (k + 1) = 9 * k + 9 by omega, show 8 * (k + 1) = 8 * k + 8 by omega]
      simpa [unpackBlock] using this
    | [_], h => simp at h
    | [_, _], h => simp at h
    | [_, _, _], h => simp at h
    | [_, _, _, _], h => simp at h
    | [_, _, _, _, _], h => simp at h
    | [_, _, _, _, _, _], h => simp at h
    | [_, _, _, _, _, _, _], h => simp at h
    | [_, _, _, _, _, _, _, _], h => simp at h

end Sys2Proof.Machine
end

