-- ==== Sys2Proof/Laws/Memory.lean ====
section
/-! SUPPORT. The laws of a buffer: a read after a write, writes leave the other bytes alone, every
operation keeps the canonical form, and two canonical buffers that read alike are equal. -/

namespace Sys2Proof.Machine

@[simp] theorem Memory.read_nil (i : Nat) : Memory.read [] i = none := rfl

/-- A read after a write gives the byte written at that index and the old byte elsewhere. -/
theorem Memory.read_write (m : Memory) (i j : Nat) (v : Byte) :
    (m.write i v).read j = if i = j then some v else m.read j := by
  induction m with
  | nil => simp [Memory.write, Memory.read]
  | cons c m ih =>
    obtain ⟨a, w⟩ := c
    simp only [Memory.write]
    split
    · simp [Memory.read]
    · split
      · rename_i h; subst h; by_cases hj : i = j <;> simp [Memory.read, hj]
      · by_cases hj : a = j
        · subst hj; simp [Memory.read, *]
        · simp [Memory.read, hj, ih]

@[simp] theorem Memory.read_write_same (m : Memory) (i : Nat) (v : Byte) :
    (m.write i v).read i = some v := by
  simp [Memory.read_write]

theorem Memory.read_write_ne (m : Memory) {i j : Nat} (v : Byte) (h : i ≠ j) :
    (m.write i v).read j = m.read j := by
  simp [Memory.read_write, h]

/-- A byte that had a value still has one after any write. -/
theorem Memory.isSome_read_write (m : Memory) (i j : Nat) (v : Byte)
    (h : (m.read j).isSome = true) : ((m.write i v).read j).isSome = true := by
  rw [Memory.read_write]; split <;> simp [h]

@[simp] theorem Memory.writeList_nil (m : Memory) (i : Nat) : m.writeList i [] = m := rfl

@[simp] theorem Memory.writeList_cons (m : Memory) (i : Nat) (v : Byte) (vs : List Byte) :
    m.writeList i (v :: vs) = (m.write i v).writeList (i + 1) vs := rfl

/-- Below the bytes written nothing changes. -/
theorem Memory.read_writeList_below (m : Memory) (i j : Nat) (vs : List Byte) (h : j < i) :
    (m.writeList i vs).read j = m.read j := by
  induction vs generalizing m i with
  | nil => rfl
  | cons v vs ih =>
    rw [Memory.writeList_cons, ih _ _ (by omega), Memory.read_write_ne _ _ (by omega)]

/-- The bytes of a list are read back where they were written. -/
theorem Memory.read_writeList_inside (m : Memory) (i k : Nat) (vs : List Byte) (h : k < vs.length) :
    (m.writeList i vs).read (i + k) = some vs[k] := by
  induction vs generalizing m i k with
  | nil => simp at h
  | cons v vs ih =>
    cases k with
    | zero => rw [Memory.writeList_cons]; simp [Memory.read_writeList_below]
    | succ k =>
      have hk : k < vs.length := by simpa using h
      have := ih (m.write i v) (i + 1) k hk
      rw [Memory.writeList_cons, show i + (k + 1) = i + 1 + k by omega, this]
      simp

/-- Above the bytes written nothing changes. -/
theorem Memory.read_writeList_above (m : Memory) (i j : Nat) (vs : List Byte)
    (h : i + vs.length ≤ j) : (m.writeList i vs).read j = m.read j := by
  induction vs generalizing m i with
  | nil => rfl
  | cons v vs ih =>
    simp only [List.length_cons] at h
    rw [Memory.writeList_cons, ih _ _ (by omega), Memory.read_write_ne _ _ (by omega)]

/-- Everything a list write does, in one equation. -/
theorem Memory.read_writeList (m : Memory) (i j : Nat) (vs : List Byte) :
    (m.writeList i vs).read j =
      if i ≤ j ∧ j < i + vs.length then vs[j - i]? else m.read j := by
  split
  · rename_i h
    obtain ⟨k, rfl⟩ := Nat.exists_eq_add_of_le h.1
    have hk : k < vs.length := by omega
    rw [Memory.read_writeList_inside _ _ _ _ hk]
    simp [hk]
  · rename_i h
    by_cases hj : j < i
    · exact Memory.read_writeList_below _ _ _ _ hj
    · exact Memory.read_writeList_above _ _ _ _ (by omega)

theorem Memory.writeList_append (m : Memory) (i : Nat) (xs ys : List Byte) :
    m.writeList i (xs ++ ys) = (m.writeList i xs).writeList (i + xs.length) ys := by
  induction xs generalizing m i with
  | nil => simp
  | cons x xs ih =>
    simp only [List.cons_append, Memory.writeList_cons, ih, List.length_cons]
    congr 1; omega

/-- A list read succeeds with `vs` exactly when each byte reads as the element of `vs` in its place. -/
theorem Memory.readList_eq_some (m : Memory) (i n : Nat) (vs : List Byte) :
    m.readList i n = some vs ↔ vs.length = n ∧ ∀ k (h : k < vs.length), m.read (i + k) = some vs[k] := by
  induction n generalizing i vs with
  | zero =>
    cases vs with
    | nil => simp [Memory.readList]
    | cons v vs => simp [Memory.readList]
  | succ n ih =>
    cases vs with
    | nil =>
      simp only [Memory.readList]
      split <;> simp
    | cons v vs =>
      have key : m.readList i (n + 1) = some (v :: vs) ↔
          m.read i = some v ∧ m.readList (i + 1) n = some vs := by
        simp only [Memory.readList]
        split
        · rename_i a b h1 h2; simp [h1, h2]
        · rename_i h
          constructor
          · intro h'; cases h'
          · rintro ⟨h1, h2⟩; exact absurd h2 (h _ _ h1)
      rw [key, ih]
      constructor
      · rintro ⟨h0, hl, hs⟩
        refine ⟨by simp [hl], fun k hk => ?_⟩
        cases k with
        | zero => simpa using h0
        | succ k =>
          have := hs k (by simpa using hk)
          rw [show i + (k + 1) = i + 1 + k by omega, this]; simp
      · rintro ⟨hl, hs⟩
        have h0 := hs 0 (by simp)
        rw [Nat.add_zero] at h0
        refine ⟨h0, by simpa using hl, fun k hk => ?_⟩
        have := hs (k + 1) (by simpa using hk)
        rw [show i + 1 + k = i + (k + 1) by omega, this]; simp

/-- A list read succeeds when every byte has a value. -/
theorem Memory.readList_of_isSome (m : Memory) (i n : Nat)
    (h : ∀ k, k < n → (m.read (i + k)).isSome = true) : ∃ vs, m.readList i n = some vs := by
  induction n generalizing i with
  | zero => exact ⟨[], rfl⟩
  | succ n ih =>
    obtain ⟨vs, hvs⟩ := ih (i + 1) fun k hk => by
      have := h (k + 1) (by omega)
      rwa [show i + 1 + k = i + (k + 1) by omega]
    obtain ⟨v, hv⟩ := Option.isSome_iff_exists.mp (h 0 (by omega))
    simp only [Nat.add_zero] at hv
    exact ⟨v :: vs, by simp [Memory.readList, hv, hvs]⟩

/-- What was written is read back. -/
theorem Memory.readList_writeList (m : Memory) (i : Nat) (vs : List Byte) :
    (m.writeList i vs).readList i vs.length = some vs :=
  (Memory.readList_eq_some _ _ _ _).mpr
    ⟨rfl, fun k h => Memory.read_writeList_inside m i k vs h⟩

/-- A list read depends only on the bytes it reads. -/
theorem Memory.readList_congr (m m' : Memory) (i n : Nat)
    (h : ∀ k, k < n → m.read (i + k) = m'.read (i + k)) : m.readList i n = m'.readList i n := by
  induction n generalizing i with
  | zero => rfl
  | succ n ih =>
    have h0 := h 0 (by omega)
    have h1 := ih (i + 1) fun k hk => by
      have := h (k + 1) (by omega)
      rwa [show i + 1 + k = i + (k + 1) by omega]
    simp only [Nat.add_zero] at h0
    simp [Memory.readList, h0, h1]

/-- The canonical form of a non-empty buffer. -/
theorem Memory.wf_cons (a : Nat) (v : Byte) (m : Memory) :
    Memory.wf ((a, v) :: m) = true ↔ (∀ c ∈ m.head?, a < c.1) ∧ m.wf = true := by
  cases m with
  | nil => simp [Memory.wf]
  | cons c m => simp [Memory.wf]

@[simp] theorem Memory.wf_nil : Memory.wf [] = true := rfl

theorem Memory.head_write (m : Memory) (i : Nat) (v : Byte) :
    ∀ c ∈ (m.write i v).head?, c.1 = i ∨ ∃ d ∈ m.head?, c.1 = d.1 := by
  cases m with
  | nil => simp [Memory.write]
  | cons d m =>
    obtain ⟨a, w⟩ := d
    simp only [Memory.write]
    split
    · simp
    · split
      · simp
      · simp

/-- A write keeps the canonical form. -/
theorem Memory.wf_write (m : Memory) (i : Nat) (v : Byte) (h : m.wf = true) :
    (m.write i v).wf = true := by
  induction m with
  | nil => rfl
  | cons c m ih =>
    obtain ⟨a, w⟩ := c
    obtain ⟨hh, ht⟩ := (Memory.wf_cons a w m).mp h
    simp only [Memory.write]
    split
    · exact (Memory.wf_cons _ _ _).mpr ⟨by simpa, h⟩
    · split
      · rename_i hi; subst hi; exact (Memory.wf_cons _ _ _).mpr ⟨hh, ht⟩
      · refine (Memory.wf_cons _ _ _).mpr ⟨fun c hc => ?_, ih ht⟩
        rcases Memory.head_write m i v c hc with h1 | ⟨d, hd, h1⟩
        · omega
        · rw [h1]; exact hh d hd

/-- A list write keeps the canonical form. -/
theorem Memory.wf_writeList (m : Memory) (i : Nat) (vs : List Byte) (h : m.wf = true) :
    (m.writeList i vs).wf = true := by
  induction vs generalizing m i with
  | nil => exact h
  | cons v vs ih => exact ih _ _ (Memory.wf_write m i v h)

theorem Memory.read_eq_none_of_lt (m : Memory) (a : Nat) (h : m.wf = true)
    (hh : ∀ c ∈ m.head?, a < c.1) : m.read a = none := by
  induction m with
  | nil => rfl
  | cons c m ih =>
    obtain ⟨b, w⟩ := c
    have hb : a < b := by simpa using hh
    obtain ⟨h1, h2⟩ := (Memory.wf_cons b w m).mp h
    have : b ≠ a := by omega
    simp only [Memory.read, this, if_false]
    exact ih h2 fun c hc => Nat.lt_trans hb (h1 c hc)

theorem Memory.read_eq_none_of_le (m : Memory) (a b : Nat) (w : Byte) (h : Memory.wf ((b, w) :: m) = true)
    (hab : a ≤ b) : m.read a = none := by
  obtain ⟨h1, h2⟩ := (Memory.wf_cons b w m).mp h
  exact Memory.read_eq_none_of_lt m a h2 fun c hc => Nat.lt_of_le_of_lt hab (h1 c hc)

/-- Two canonical buffers that read alike at every index are equal. -/
theorem Memory.ext_read (m m' : Memory) (h : m.wf = true) (h' : m'.wf = true)
    (hr : ∀ i, m.read i = m'.read i) : m = m' := by
  induction m generalizing m' with
  | nil =>
    cases m' with
    | nil => rfl
    | cons d m' => obtain ⟨b, w⟩ := d; simpa [Memory.read] using hr b
  | cons c m ih =>
    obtain ⟨a, v⟩ := c
    cases m' with
    | nil => simpa [Memory.read] using hr a
    | cons d m' =>
      obtain ⟨b, w⟩ := d
      have hab : a = b := by
        rcases Nat.lt_trichotomy a b with hlt | heq | hgt
        · have h1 := hr a
          have h2 := Memory.read_eq_none_of_le m' a b w h' (by omega)
          have : b ≠ a := by omega
          simp [Memory.read, this, h2] at h1
        · exact heq
        · have h1 := hr b
          have h2 := Memory.read_eq_none_of_le m b a v h (by omega)
          have : a ≠ b := by omega
          simp [Memory.read, this, h2] at h1
      subst hab
      have hv : v = w := by simpa [Memory.read] using hr a
      subst hv
      have hm : m = m' := by
        refine ih m' ((Memory.wf_cons _ _ _).mp h).2 ((Memory.wf_cons _ _ _).mp h').2 fun i => ?_
        by_cases hi : a = i
        · subst hi
          rw [Memory.read_eq_none_of_le m a a v h (Nat.le_refl _),
            Memory.read_eq_none_of_le m' a a v h' (Nat.le_refl _)]
        · simpa [Memory.read, hi] using hr i
      rw [hm]

/-- The buffers after reset are in canonical form. -/
theorem State.reset_buffers_wf : State.reset.inp.wf = true ∧ State.reset.out.wf = true := ⟨rfl, rfl⟩

end Sys2Proof.Machine
end

