-- ==== Sys2Proof/Laws/State.lean ====
section
/-! SUPPORT. What each named update of the state does to each field: one lemma a field, true by
definition, so that no proof unfolds a record update. -/

namespace Sys2Proof.Machine

@[simp] theorem State.accept_carry (s : State) : (s.accept).carry = s.carry := rfl
@[simp] theorem State.accept_pos (s : State) : (s.accept).pos = s.pos := rfl
@[simp] theorem State.accept_blk (s : State) : (s.accept).blk = s.blk := rfl
@[simp] theorem State.accept_nblk (s : State) : (s.accept).nblk = s.nblk := rfl
@[simp] theorem State.accept_opl (s : State) : (s.accept).opl = s.opl := rfl
@[simp] theorem State.accept_phase (s : State) : (s.accept).phase = .run := rfl
@[simp] theorem State.accept_op (s : State) : (s.accept).op = s.op := rfl
@[simp] theorem State.accept_len (s : State) : (s.accept).len = s.len := rfl
@[simp] theorem State.accept_b (s : State) : (s.accept).b = s.b := rfl
@[simp] theorem State.accept_offered (s : State) : (s.accept).offered = false := rfl
@[simp] theorem State.accept_inp (s : State) : (s.accept).inp = s.inp := rfl
@[simp] theorem State.accept_out (s : State) : (s.accept).out = s.out := rfl
@[simp] theorem State.accept_status (s : State) : (s.accept).status = none := rfl
@[simp] theorem State.accept_outLen (s : State) : (s.accept).outLen = none := rfl
@[simp] theorem State.accept_p (s : State) : (s.accept).p = none := rfl

@[simp] theorem State.latch_carry (s : State) (w : OpWord) (n : Nat) : (s.latch w n).carry = s.carry := rfl
@[simp] theorem State.latch_pos (s : State) (w : OpWord) (n : Nat) : (s.latch w n).pos = s.pos := rfl
@[simp] theorem State.latch_blk (s : State) (w : OpWord) (n : Nat) : (s.latch w n).blk = 0 := rfl
@[simp] theorem State.latch_nblk (s : State) (w : OpWord) (n : Nat) : (s.latch w n).nblk = n := rfl
@[simp] theorem State.latch_opl (s : State) (w : OpWord) (n : Nat) : (s.latch w n).opl = w := rfl
@[simp] theorem State.latch_phase (s : State) (w : OpWord) (n : Nat) : (s.latch w n).phase = s.phase := rfl
@[simp] theorem State.latch_op (s : State) (w : OpWord) (n : Nat) : (s.latch w n).op = s.op := rfl
@[simp] theorem State.latch_len (s : State) (w : OpWord) (n : Nat) : (s.latch w n).len = s.len := rfl
@[simp] theorem State.latch_b (s : State) (w : OpWord) (n : Nat) : (s.latch w n).b = s.b := rfl
@[simp] theorem State.latch_offered (s : State) (w : OpWord) (n : Nat) : (s.latch w n).offered = s.offered := rfl
@[simp] theorem State.latch_inp (s : State) (w : OpWord) (n : Nat) : (s.latch w n).inp = s.inp := rfl
@[simp] theorem State.latch_out (s : State) (w : OpWord) (n : Nat) : (s.latch w n).out = s.out := rfl
@[simp] theorem State.latch_status (s : State) (w : OpWord) (n : Nat) : (s.latch w n).status = s.status := rfl
@[simp] theorem State.latch_outLen (s : State) (w : OpWord) (n : Nat) : (s.latch w n).outLen = s.outLen := rfl
@[simp] theorem State.latch_p (s : State) (w : OpWord) (n : Nat) : (s.latch w n).p = s.p := rfl

@[simp] theorem State.startBlock_carry (s : State) : (s.startBlock).carry = 0 := rfl
@[simp] theorem State.startBlock_pos (s : State) : (s.startBlock).pos = 0 := rfl
@[simp] theorem State.startBlock_blk (s : State) : (s.startBlock).blk = s.blk := rfl
@[simp] theorem State.startBlock_nblk (s : State) : (s.startBlock).nblk = s.nblk := rfl
@[simp] theorem State.startBlock_opl (s : State) : (s.startBlock).opl = s.opl := rfl
@[simp] theorem State.startBlock_phase (s : State) : (s.startBlock).phase = s.phase := rfl
@[simp] theorem State.startBlock_op (s : State) : (s.startBlock).op = s.op := rfl
@[simp] theorem State.startBlock_len (s : State) : (s.startBlock).len = s.len := rfl
@[simp] theorem State.startBlock_b (s : State) : (s.startBlock).b = s.b := rfl
@[simp] theorem State.startBlock_offered (s : State) : (s.startBlock).offered = s.offered := rfl
@[simp] theorem State.startBlock_inp (s : State) : (s.startBlock).inp = s.inp := rfl
@[simp] theorem State.startBlock_out (s : State) : (s.startBlock).out = s.out := rfl
@[simp] theorem State.startBlock_status (s : State) : (s.startBlock).status = s.status := rfl
@[simp] theorem State.startBlock_outLen (s : State) : (s.startBlock).outLen = s.outLen := rfl
@[simp] theorem State.startBlock_p (s : State) : (s.startBlock).p = s.p := rfl

@[simp] theorem State.endBlocks_carry (s : State) : (s.endBlocks).carry = 0 := rfl
@[simp] theorem State.endBlocks_pos (s : State) : (s.endBlocks).pos = 0 := rfl
@[simp] theorem State.endBlocks_blk (s : State) : (s.endBlocks).blk = s.nblk := rfl
@[simp] theorem State.endBlocks_nblk (s : State) : (s.endBlocks).nblk = s.nblk := rfl
@[simp] theorem State.endBlocks_opl (s : State) : (s.endBlocks).opl = s.opl := rfl
@[simp] theorem State.endBlocks_phase (s : State) : (s.endBlocks).phase = s.phase := rfl
@[simp] theorem State.endBlocks_op (s : State) : (s.endBlocks).op = s.op := rfl
@[simp] theorem State.endBlocks_len (s : State) : (s.endBlocks).len = s.len := rfl
@[simp] theorem State.endBlocks_b (s : State) : (s.endBlocks).b = s.b := rfl
@[simp] theorem State.endBlocks_offered (s : State) : (s.endBlocks).offered = s.offered := rfl
@[simp] theorem State.endBlocks_inp (s : State) : (s.endBlocks).inp = s.inp := rfl
@[simp] theorem State.endBlocks_out (s : State) : (s.endBlocks).out = s.out := rfl
@[simp] theorem State.endBlocks_status (s : State) : (s.endBlocks).status = s.status := rfl
@[simp] theorem State.endBlocks_outLen (s : State) : (s.endBlocks).outLen = s.outLen := rfl
@[simp] theorem State.endBlocks_p (s : State) : (s.endBlocks).p = s.p := rfl

@[simp] theorem State.writeOut_carry (s : State) (bytes : List Byte) : (s.writeOut bytes).carry = s.carry := rfl
@[simp] theorem State.writeOut_pos (s : State) (bytes : List Byte) : (s.writeOut bytes).pos = s.pos := rfl
@[simp] theorem State.writeOut_blk (s : State) (bytes : List Byte) : (s.writeOut bytes).blk = s.blk := rfl
@[simp] theorem State.writeOut_nblk (s : State) (bytes : List Byte) : (s.writeOut bytes).nblk = s.nblk := rfl
@[simp] theorem State.writeOut_opl (s : State) (bytes : List Byte) : (s.writeOut bytes).opl = s.opl := rfl
@[simp] theorem State.writeOut_phase (s : State) (bytes : List Byte) : (s.writeOut bytes).phase = s.phase := rfl
@[simp] theorem State.writeOut_op (s : State) (bytes : List Byte) : (s.writeOut bytes).op = s.op := rfl
@[simp] theorem State.writeOut_len (s : State) (bytes : List Byte) : (s.writeOut bytes).len = s.len := rfl
@[simp] theorem State.writeOut_b (s : State) (bytes : List Byte) : (s.writeOut bytes).b = s.b := rfl
@[simp] theorem State.writeOut_offered (s : State) (bytes : List Byte) : (s.writeOut bytes).offered = s.offered := rfl
@[simp] theorem State.writeOut_inp (s : State) (bytes : List Byte) : (s.writeOut bytes).inp = s.inp := rfl
@[simp] theorem State.writeOut_out (s : State) (bytes : List Byte) : (s.writeOut bytes).out = s.out.writeList 0 bytes := rfl
@[simp] theorem State.writeOut_status (s : State) (bytes : List Byte) : (s.writeOut bytes).status = s.status := rfl
@[simp] theorem State.writeOut_outLen (s : State) (bytes : List Byte) : (s.writeOut bytes).outLen = s.outLen := rfl
@[simp] theorem State.writeOut_p (s : State) (bytes : List Byte) : (s.writeOut bytes).p = s.p := rfl

@[simp] theorem State.completeBuffer_carry (s : State) (l : Nat) : (s.completeBuffer l).carry = s.carry := rfl
@[simp] theorem State.completeBuffer_pos (s : State) (l : Nat) : (s.completeBuffer l).pos = s.pos := rfl
@[simp] theorem State.completeBuffer_blk (s : State) (l : Nat) : (s.completeBuffer l).blk = s.blk := rfl
@[simp] theorem State.completeBuffer_nblk (s : State) (l : Nat) : (s.completeBuffer l).nblk = s.nblk := rfl
@[simp] theorem State.completeBuffer_opl (s : State) (l : Nat) : (s.completeBuffer l).opl = s.opl := rfl
@[simp] theorem State.completeBuffer_phase (s : State) (l : Nat) : (s.completeBuffer l).phase = .idle := rfl
@[simp] theorem State.completeBuffer_op (s : State) (l : Nat) : (s.completeBuffer l).op = s.op := rfl
@[simp] theorem State.completeBuffer_len (s : State) (l : Nat) : (s.completeBuffer l).len = s.len := rfl
@[simp] theorem State.completeBuffer_b (s : State) (l : Nat) : (s.completeBuffer l).b = s.b := rfl
@[simp] theorem State.completeBuffer_offered (s : State) (l : Nat) : (s.completeBuffer l).offered = s.offered := rfl
@[simp] theorem State.completeBuffer_inp (s : State) (l : Nat) : (s.completeBuffer l).inp = s.inp := rfl
@[simp] theorem State.completeBuffer_out (s : State) (l : Nat) : (s.completeBuffer l).out = s.out := rfl
@[simp] theorem State.completeBuffer_status (s : State) (l : Nat) : (s.completeBuffer l).status = some .ok := rfl
@[simp] theorem State.completeBuffer_outLen (s : State) (l : Nat) : (s.completeBuffer l).outLen = some l := rfl
@[simp] theorem State.completeBuffer_p (s : State) (l : Nat) : (s.completeBuffer l).p = none := rfl

@[simp] theorem State.completePar_carry (s : State) (bit : Bit) : (s.completePar bit).carry = s.carry := rfl
@[simp] theorem State.completePar_pos (s : State) (bit : Bit) : (s.completePar bit).pos = s.pos := rfl
@[simp] theorem State.completePar_blk (s : State) (bit : Bit) : (s.completePar bit).blk = s.blk := rfl
@[simp] theorem State.completePar_nblk (s : State) (bit : Bit) : (s.completePar bit).nblk = s.nblk := rfl
@[simp] theorem State.completePar_opl (s : State) (bit : Bit) : (s.completePar bit).opl = s.opl := rfl
@[simp] theorem State.completePar_phase (s : State) (bit : Bit) : (s.completePar bit).phase = .idle := rfl
@[simp] theorem State.completePar_op (s : State) (bit : Bit) : (s.completePar bit).op = s.op := rfl
@[simp] theorem State.completePar_len (s : State) (bit : Bit) : (s.completePar bit).len = s.len := rfl
@[simp] theorem State.completePar_b (s : State) (bit : Bit) : (s.completePar bit).b = s.b := rfl
@[simp] theorem State.completePar_offered (s : State) (bit : Bit) : (s.completePar bit).offered = s.offered := rfl
@[simp] theorem State.completePar_inp (s : State) (bit : Bit) : (s.completePar bit).inp = s.inp := rfl
@[simp] theorem State.completePar_out (s : State) (bit : Bit) : (s.completePar bit).out = s.out := rfl
@[simp] theorem State.completePar_status (s : State) (bit : Bit) : (s.completePar bit).status = some .ok := rfl
@[simp] theorem State.completePar_outLen (s : State) (bit : Bit) : (s.completePar bit).outLen = some 0 := rfl
@[simp] theorem State.completePar_p (s : State) (bit : Bit) : (s.completePar bit).p = some bit := rfl

@[simp] theorem State.raise_carry (s : State) (e : Status) : (s.raise e).carry = s.carry := rfl
@[simp] theorem State.raise_pos (s : State) (e : Status) : (s.raise e).pos = s.pos := rfl
@[simp] theorem State.raise_blk (s : State) (e : Status) : (s.raise e).blk = s.blk := rfl
@[simp] theorem State.raise_nblk (s : State) (e : Status) : (s.raise e).nblk = s.nblk := rfl
@[simp] theorem State.raise_opl (s : State) (e : Status) : (s.raise e).opl = s.opl := rfl
@[simp] theorem State.raise_phase (s : State) (e : Status) : (s.raise e).phase = .idle := rfl
@[simp] theorem State.raise_op (s : State) (e : Status) : (s.raise e).op = s.op := rfl
@[simp] theorem State.raise_len (s : State) (e : Status) : (s.raise e).len = s.len := rfl
@[simp] theorem State.raise_b (s : State) (e : Status) : (s.raise e).b = s.b := rfl
@[simp] theorem State.raise_offered (s : State) (e : Status) : (s.raise e).offered = s.offered := rfl
@[simp] theorem State.raise_inp (s : State) (e : Status) : (s.raise e).inp = s.inp := rfl
@[simp] theorem State.raise_out (s : State) (e : Status) : (s.raise e).out = s.out := rfl
@[simp] theorem State.raise_status (s : State) (e : Status) : (s.raise e).status = some e := rfl
@[simp] theorem State.raise_outLen (s : State) (e : Status) : (s.raise e).outLen = some 0 := rfl
@[simp] theorem State.raise_p (s : State) (e : Status) : (s.raise e).p = none := rfl

@[simp] theorem State.drop_carry (s : State) : (s.drop).carry = s.carry := rfl
@[simp] theorem State.drop_pos (s : State) : (s.drop).pos = s.pos := rfl
@[simp] theorem State.drop_blk (s : State) : (s.drop).blk = s.blk := rfl
@[simp] theorem State.drop_nblk (s : State) : (s.drop).nblk = s.nblk := rfl
@[simp] theorem State.drop_opl (s : State) : (s.drop).opl = s.opl := rfl
@[simp] theorem State.drop_phase (s : State) : (s.drop).phase = s.phase := rfl
@[simp] theorem State.drop_op (s : State) : (s.drop).op = s.op := rfl
@[simp] theorem State.drop_len (s : State) : (s.drop).len = s.len := rfl
@[simp] theorem State.drop_b (s : State) : (s.drop).b = s.b := rfl
@[simp] theorem State.drop_offered (s : State) : (s.drop).offered = false := rfl
@[simp] theorem State.drop_inp (s : State) : (s.drop).inp = s.inp := rfl
@[simp] theorem State.drop_out (s : State) : (s.drop).out = s.out := rfl
@[simp] theorem State.drop_status (s : State) : (s.drop).status = s.status := rfl
@[simp] theorem State.drop_outLen (s : State) : (s.drop).outLen = s.outLen := rfl
@[simp] theorem State.drop_p (s : State) : (s.drop).p = s.p := rfl

@[simp] theorem State.drivePorts_carry (s : State) (w : OpWord) (n : Nat) (v : Byte) : (s.drivePorts w n v).carry = s.carry := rfl
@[simp] theorem State.drivePorts_pos (s : State) (w : OpWord) (n : Nat) (v : Byte) : (s.drivePorts w n v).pos = s.pos := rfl
@[simp] theorem State.drivePorts_blk (s : State) (w : OpWord) (n : Nat) (v : Byte) : (s.drivePorts w n v).blk = s.blk := rfl
@[simp] theorem State.drivePorts_nblk (s : State) (w : OpWord) (n : Nat) (v : Byte) : (s.drivePorts w n v).nblk = s.nblk := rfl
@[simp] theorem State.drivePorts_opl (s : State) (w : OpWord) (n : Nat) (v : Byte) : (s.drivePorts w n v).opl = s.opl := rfl
@[simp] theorem State.drivePorts_phase (s : State) (w : OpWord) (n : Nat) (v : Byte) : (s.drivePorts w n v).phase = s.phase := rfl
@[simp] theorem State.drivePorts_op (s : State) (w : OpWord) (n : Nat) (v : Byte) : (s.drivePorts w n v).op = w := rfl
@[simp] theorem State.drivePorts_len (s : State) (w : OpWord) (n : Nat) (v : Byte) : (s.drivePorts w n v).len = n := rfl
@[simp] theorem State.drivePorts_b (s : State) (w : OpWord) (n : Nat) (v : Byte) : (s.drivePorts w n v).b = v := rfl
@[simp] theorem State.drivePorts_offered (s : State) (w : OpWord) (n : Nat) (v : Byte) : (s.drivePorts w n v).offered = s.offered := rfl
@[simp] theorem State.drivePorts_inp (s : State) (w : OpWord) (n : Nat) (v : Byte) : (s.drivePorts w n v).inp = s.inp := rfl
@[simp] theorem State.drivePorts_out (s : State) (w : OpWord) (n : Nat) (v : Byte) : (s.drivePorts w n v).out = s.out := rfl
@[simp] theorem State.drivePorts_status (s : State) (w : OpWord) (n : Nat) (v : Byte) : (s.drivePorts w n v).status = s.status := rfl
@[simp] theorem State.drivePorts_outLen (s : State) (w : OpWord) (n : Nat) (v : Byte) : (s.drivePorts w n v).outLen = s.outLen := rfl
@[simp] theorem State.drivePorts_p (s : State) (w : OpWord) (n : Nat) (v : Byte) : (s.drivePorts w n v).p = s.p := rfl

@[simp] theorem State.resetEvent_carry (s : State) : (s.resetEvent).carry = 0 := rfl
@[simp] theorem State.resetEvent_pos (s : State) : (s.resetEvent).pos = 0 := rfl
@[simp] theorem State.resetEvent_blk (s : State) : (s.resetEvent).blk = 0 := rfl
@[simp] theorem State.resetEvent_nblk (s : State) : (s.resetEvent).nblk = 0 := rfl
@[simp] theorem State.resetEvent_opl (s : State) : (s.resetEvent).opl = 0 := rfl
@[simp] theorem State.resetEvent_phase (s : State) : (s.resetEvent).phase = .idle := rfl
@[simp] theorem State.resetEvent_op (s : State) : (s.resetEvent).op = s.op := rfl
@[simp] theorem State.resetEvent_len (s : State) : (s.resetEvent).len = s.len := rfl
@[simp] theorem State.resetEvent_b (s : State) : (s.resetEvent).b = s.b := rfl
@[simp] theorem State.resetEvent_offered (s : State) : (s.resetEvent).offered = s.offered := rfl
@[simp] theorem State.resetEvent_inp (s : State) : (s.resetEvent).inp = s.inp := rfl
@[simp] theorem State.resetEvent_out (s : State) : (s.resetEvent).out = s.out := rfl
@[simp] theorem State.resetEvent_status (s : State) : (s.resetEvent).status = none := rfl
@[simp] theorem State.resetEvent_outLen (s : State) : (s.resetEvent).outLen = none := rfl
@[simp] theorem State.resetEvent_p (s : State) : (s.resetEvent).p = none := rfl

/-- In IDLE a command is accepted (R125). -/
@[simp] theorem State.accepted_idle (s : State) (k : State → Host.Outcome State Fault Refusal)
    (h : s.phase = .idle) : s.accepted k = k s.accept := by
  simp [State.accepted, h]

/-- In RUN no command is accepted (R169). -/
@[simp] theorem State.accepted_run (s : State) (k : State → Host.Outcome State Fault Refusal)
    (h : s.phase = .run) : s.accepted k = .refused .commandOfferedInRun := by
  simp [State.accepted, h]

/-- All that acceptance can lead to: what the command does after it, or the refusal in RUN. -/
theorem State.accepted_next {s t : State} {k : State → Host.Outcome State Fault Refusal}
    (h : s.accepted k = .next t) : s.phase = .idle ∧ k s.accept = .next t := by
  cases hp : s.phase with
  | idle => exact ⟨rfl, by simpa [hp] using h⟩
  | run => simp [hp] at h

/-- What the advance of R127 does, by the two cases of the rule. -/
theorem State.advance_of_lt (s : State) (h : s.pos.toNat < 8) :
    s.advance = { s with pos := s.pos + 1 } := by
  simp [State.advance, h]

theorem State.advance_of_not_lt (s : State) (h : ¬ s.pos.toNat < 8) :
    s.advance = { s with pos := 0, carry := 0, blk := s.blk + 1 } := by
  simp [State.advance, h]

/-- A read of `IN` that succeeds goes on with the byte. -/
@[simp] theorem State.readIn_some (s : State) (i : Nat) (v : Byte)
    (k : Byte → Host.Outcome State Fault Refusal) (h : s.inp.read i = some v) :
    s.readIn i k = k v := by
  simp [State.readIn, h]

@[simp] theorem State.readIn_none (s : State) (i : Nat)
    (k : Byte → Host.Outcome State Fault Refusal) (h : s.inp.read i = none) :
    s.readIn i k = .refused .inByteHasNoValue := by
  simp [State.readIn, h]

theorem State.readIn_next {s t : State} {i : Nat} {k : Byte → Host.Outcome State Fault Refusal}
    (h : s.readIn i k = .next t) : ∃ v, s.inp.read i = some v ∧ k v = .next t := by
  cases hr : s.inp.read i with
  | none => simp [hr] at h
  | some v => exact ⟨v, rfl, by simpa [hr] using h⟩

end Sys2Proof.Machine
end

