-- ==== Sys2Proof/Laws/Commands.lean ====
section
/-! SUPPORT. What each shared command can do, once: if it answers a next state, then one of these cases
holds; and from which states it answers one. The meanings are one line each over these. -/

namespace Sys2Proof.Machine

@[simp] theorem State.operandByte_eq (s : State) : s.operandByte = s.b := rfl

@[simp] theorem State.operandBytes_eq (s : State) : s.operandBytes = s.inp.readList 0 s.len := rfl

@[simp] theorem lengthOk_pack (n : Nat) : lengthOk .pack n = decide (n % 8 = 0) := by
  simp [lengthOk, Bool.beq_eq_decide_eq]

@[simp] theorem lengthOk_unpack (n : Nat) : lengthOk .unpack n = decide (n % 9 = 0) := by
  simp [lengthOk, Bool.beq_eq_decide_eq]

@[simp] theorem lengthOk_par (n : Nat) : lengthOk .par n = true := rfl

@[simp] theorem lengthOk_reserved (n : Nat) : lengthOk .reserved n = true := rfl

/-- The state that a parity command completes in (R81, R82, R129). -/
theorem parCommand_idle (m : Bit) (op : OpWord) (s : State) (h : s.phase = .idle) :
    parCommand m op s = .next ((s.accept.latch op 0).completePar (par m s.b)) := by
  simp [parCommand, h]

/-- A pack command of invalid length takes the error entry (R141, R145). -/
theorem packCommand_invalid (m : Bit) (op : OpWord) (s : State) (h : s.phase = .idle)
    (hl : s.len % 8 ≠ 0) : packCommand m op s = .next (s.accept.raise .invalidLength) := by
  simp [packCommand, h, hl]

/-- A pack command of valid length packs the bytes it reads (R98). -/
theorem packCommand_valid (m : Bit) (op : OpWord) (s : State) (raw : List Byte) (h : s.phase = .idle)
    (hl : s.len % 8 = 0) (hr : s.inp.readList 0 s.len = some raw) :
    packCommand m op s = .next ((((s.accept.latch op (s.len / 8)).writeOut
      (packBytes m raw)).endBlocks).completeBuffer (s.len + s.len / 8)) := by
  simp [packCommand, h, hl, hr, blockCount, packLen]

/-- A pack command of valid length with a missing byte has no meaning (R167). -/
theorem packCommand_missing (m : Bit) (op : OpWord) (s : State) (h : s.phase = .idle)
    (hl : s.len % 8 = 0) (hr : s.inp.readList 0 s.len = none) :
    packCommand m op s = .refused .inByteHasNoValue := by
  simp [packCommand, h, hl, hr]

/-- All that a pack command can answer as a next state. -/
theorem packCommand_next {m : Bit} {op : OpWord} {s t : State} (h : packCommand m op s = .next t) :
    s.phase = .idle ∧
      ((s.len % 8 ≠ 0 ∧ t = s.accept.raise .invalidLength) ∨
        (s.len % 8 = 0 ∧ ∃ raw, s.inp.readList 0 s.len = some raw ∧
          t = (((s.accept.latch op (s.len / 8)).writeOut (packBytes m raw)).endBlocks).completeBuffer
            (s.len + s.len / 8))) := by
  cases hp : s.phase with
  | run => simp [packCommand, hp] at h
  | idle =>
    refine ⟨rfl, ?_⟩
    by_cases hl : s.len % 8 = 0
    · cases hr : s.inp.readList 0 s.len with
      | none => rw [packCommand_missing m op s hp hl hr] at h; cases h
      | some raw =>
        rw [packCommand_valid m op s raw hp hl hr] at h
        exact .inr ⟨hl, raw, rfl, by cases h; rfl⟩
    · rw [packCommand_invalid m op s hp hl] at h
      exact .inl ⟨hl, by cases h; rfl⟩

/-- An unpack command of invalid length takes the error entry (R141, R145). -/
theorem unpackCommand_invalid (op : OpWord) (s : State) (h : s.phase = .idle)
    (hl : s.len % 9 ≠ 0) : unpackCommand op s = .next (s.accept.raise .invalidLength) := by
  simp [unpackCommand, h, hl]

/-- An unpack command of valid length unpacks the bytes it reads (R114). -/
theorem unpackCommand_valid (op : OpWord) (s : State) (enc : List Byte) (h : s.phase = .idle)
    (hl : s.len % 9 = 0) (hr : s.inp.readList 0 s.len = some enc) :
    unpackCommand op s = .next ((((s.accept.latch op (s.len / 9)).writeOut
      (unpackBytes enc)).endBlocks).completeBuffer (s.len - s.len / 9)) := by
  simp [unpackCommand, h, hl, hr, blockCount, unpackLen]

/-- An unpack command of valid length with a missing byte has no meaning (R167). -/
theorem unpackCommand_missing (op : OpWord) (s : State) (h : s.phase = .idle)
    (hl : s.len % 9 = 0) (hr : s.inp.readList 0 s.len = none) :
    unpackCommand op s = .refused .inByteHasNoValue := by
  simp [unpackCommand, h, hl, hr]

/-- All that an unpack command can answer as a next state. -/
theorem unpackCommand_next {op : OpWord} {s t : State} (h : unpackCommand op s = .next t) :
    s.phase = .idle ∧
      ((s.len % 9 ≠ 0 ∧ t = s.accept.raise .invalidLength) ∨
        (s.len % 9 = 0 ∧ ∃ enc, s.inp.readList 0 s.len = some enc ∧
          t = (((s.accept.latch op (s.len / 9)).writeOut (unpackBytes enc)).endBlocks).completeBuffer
            (s.len - s.len / 9))) := by
  cases hp : s.phase with
  | run => simp [unpackCommand, hp] at h
  | idle =>
    refine ⟨rfl, ?_⟩
    by_cases hl : s.len % 9 = 0
    · cases hr : s.inp.readList 0 s.len with
      | none => rw [unpackCommand_missing op s hp hl hr] at h; cases h
      | some enc =>
        rw [unpackCommand_valid op s enc hp hl hr] at h
        exact .inr ⟨hl, enc, rfl, by cases h; rfl⟩
    · rw [unpackCommand_invalid op s hp hl] at h
      exact .inl ⟨hl, by cases h; rfl⟩

/-- A reserved opcode takes the error entry (R142, R145). -/
theorem reservedCommand_idle (s : State) (h : s.phase = .idle) :
    reservedCommand s = .next (s.accept.raise .illegalCommand) := by
  simp [reservedCommand, h]

/-- All that a command can answer as a next state, in the four shapes of R129 and R145: a parity bit, a
packed buffer, an unpacked buffer, an error. -/
theorem exec_next {i : Instr} {s t : State} (h : exec i s = .next t) :
    s.phase = .idle ∧
      ((opClass (encode i) = .par ∧
          t = (s.accept.latch (encode i) 0).completePar (par (opMode (encode i)) s.b)) ∨
        (opClass (encode i) = .pack ∧ s.len % 8 = 0 ∧ ∃ raw, s.inp.readList 0 s.len = some raw ∧
          t = (((s.accept.latch (encode i) (s.len / 8)).writeOut
            (packBytes (opMode (encode i)) raw)).endBlocks).completeBuffer (s.len + s.len / 8)) ∨
        (opClass (encode i) = .unpack ∧ s.len % 9 = 0 ∧ ∃ enc, s.inp.readList 0 s.len = some enc ∧
          t = (((s.accept.latch (encode i) (s.len / 9)).writeOut
            (unpackBytes enc)).endBlocks).completeBuffer (s.len - s.len / 9)) ∨
        (((opClass (encode i) = .pack ∧ s.len % 8 ≠ 0) ∨ (opClass (encode i) = .unpack ∧ s.len % 9 ≠ 0)) ∧
          t = s.accept.raise .invalidLength) ∨
        (opClass (encode i) = .reserved ∧ t = s.accept.raise .illegalCommand)) := by
  have parCase : ∀ m op, parCommand m op s = .next t → s.phase = .idle ∧
      t = (s.accept.latch op 0).completePar (par m s.b) := by
    intro m op h
    obtain ⟨hp, h⟩ := State.accepted_next h
    exact ⟨hp, by cases h; rfl⟩
  have reservedCase : reservedCommand s = .next t → s.phase = .idle ∧
      t = s.accept.raise .illegalCommand := by
    intro h
    obtain ⟨hp, h⟩ := State.accepted_next h
    exact ⟨hp, by cases h; rfl⟩
  cases i with
  | parEven => exact ⟨(parCase _ _ h).1, .inl ⟨rfl, (parCase _ _ h).2⟩⟩
  | parOdd => exact ⟨(parCase _ _ h).1, .inl ⟨rfl, (parCase _ _ h).2⟩⟩
  | packEven =>
    obtain ⟨hp, ⟨hl, ht⟩ | ⟨hl, hr⟩⟩ := packCommand_next h
    · exact ⟨hp, .inr (.inr (.inr (.inl ⟨.inl ⟨rfl, hl⟩, ht⟩)))⟩
    · exact ⟨hp, .inr (.inl ⟨rfl, hl, hr⟩)⟩
  | packOdd =>
    obtain ⟨hp, ⟨hl, ht⟩ | ⟨hl, hr⟩⟩ := packCommand_next h
    · exact ⟨hp, .inr (.inr (.inr (.inl ⟨.inl ⟨rfl, hl⟩, ht⟩)))⟩
    · exact ⟨hp, .inr (.inl ⟨rfl, hl, hr⟩)⟩
  | unpack =>
    obtain ⟨hp, ⟨hl, ht⟩ | ⟨hl, hr⟩⟩ := unpackCommand_next h
    · exact ⟨hp, .inr (.inr (.inr (.inl ⟨.inr ⟨rfl, hl⟩, ht⟩)))⟩
    · exact ⟨hp, .inr (.inr (.inl ⟨rfl, hl, hr⟩))⟩
  | unpackAlias =>
    obtain ⟨hp, ⟨hl, ht⟩ | ⟨hl, hr⟩⟩ := unpackCommand_next h
    · exact ⟨hp, .inr (.inr (.inr (.inl ⟨.inr ⟨rfl, hl⟩, ht⟩)))⟩
    · exact ⟨hp, .inr (.inr (.inl ⟨rfl, hl, hr⟩))⟩
  | reserved110 => exact ⟨(reservedCase h).1, .inr (.inr (.inr (.inr ⟨rfl, (reservedCase h).2⟩)))⟩
  | reserved111 => exact ⟨(reservedCase h).1, .inr (.inr (.inr (.inr ⟨rfl, (reservedCase h).2⟩)))⟩

/-- A micro-step, or the completion, that answers a next state: by the class of the latched opcode. -/
theorem microStep_next {s t : State} (h : microStep s = .next t) :
    (opClass s.opl = .pack ∧
        ((s.blk < s.nblk ∧ packMicro s = .next t) ∨ (¬ s.blk < s.nblk ∧ t = s.completeBuffer (9 * s.nblk)))) ∨
      (opClass s.opl = .unpack ∧
        ((s.blk < s.nblk ∧ unpackMicro s = .next t) ∨
          (¬ s.blk < s.nblk ∧ t = s.completeBuffer (8 * s.nblk)))) := by
  unfold microStep at h
  cases hc : opClass s.opl with
  | par => simp [hc] at h
  | reserved => simp [hc] at h
  | pack =>
    left
    refine ⟨rfl, ?_⟩
    by_cases hb : s.blk < s.nblk
    · exact .inl ⟨hb, by simpa [hc, hb] using h⟩
    · exact .inr ⟨hb, by simpa [hc, hb, eq_comm] using h⟩
  | unpack =>
    right
    refine ⟨rfl, ?_⟩
    by_cases hb : s.blk < s.nblk
    · exact .inl ⟨hb, by simpa [hc, hb] using h⟩
    · exact .inr ⟨hb, by simpa [hc, hb, eq_comm] using h⟩

/-- All that a micro-step of the packer can answer as a next state, by its position (R100). -/
theorem packMicro_next {s t : State} (h : packMicro s = .next t) :
    (s.pos.toNat = 0 ∧ ∃ cur, s.inp.read (8 * s.blk) = some cur ∧
        t = { s with out := s.out.write (9 * s.blk) cur, carry := shl8 cur 8, pos := s.pos + 1 }) ∨
      (1 ≤ s.pos.toNat ∧ s.pos.toNat ≤ 7 ∧ ∃ prev cur,
        s.inp.read (8 * s.blk + s.pos.toNat - 1) = some prev ∧
        s.inp.read (8 * s.blk + s.pos.toNat) = some cur ∧
        t = { s with
          out := s.out.write (9 * s.blk + s.pos.toNat)
            (s.carry ||| bitAt (par (opMode s.opl) prev) (8 - s.pos.toNat) ||| shr cur s.pos.toNat)
          carry := shl8 cur (8 - s.pos.toNat), pos := s.pos + 1 }) ∨
      (s.pos.toNat = 8 ∧ ∃ prev, s.inp.read (8 * s.blk + 7) = some prev ∧
        t = { s with
          out := s.out.write (9 * s.blk + 8) (s.carry ||| bitAt (par (opMode s.opl) prev) 0)
          carry := 0, pos := 0, blk := s.blk + 1 }) := by
  unfold packMicro at h
  simp only at h
  split at h
  · rename_i h0
    obtain ⟨cur, hr, h⟩ := State.readIn_next h
    rw [State.advance_of_lt _ (by simp only; omega)] at h
    cases h
    exact .inl ⟨h0, cur, hr, rfl⟩
  · split at h
    · rename_i h0 h7
      obtain ⟨prev, hp, h⟩ := State.readIn_next h
      obtain ⟨cur, hr, h⟩ := State.readIn_next h
      rw [State.advance_of_lt _ (by simp only; omega)] at h
      cases h
      exact .inr (.inl ⟨by omega, h7, prev, cur, hp, hr, rfl⟩)
    · split at h
      · rename_i h8
        obtain ⟨prev, hp, h⟩ := State.readIn_next h
        rw [State.advance_of_not_lt _ (by simp only; omega)] at h
        cases h
        exact .inr (.inr ⟨h8, prev, hp, rfl⟩)
      · cases h

/-- All that a micro-step of the unpacker can answer as a next state, by its position (R117). -/
theorem unpackMicro_next {s t : State} (h : unpackMicro s = .next t) :
    (s.pos.toNat = 0 ∧ ∃ e, s.inp.read (9 * s.blk) = some e ∧
        t = { s with carry := e, pos := s.pos + 1 }) ∨
      (1 ≤ s.pos.toNat ∧ s.pos.toNat ≤ 7 ∧ ∃ e, s.inp.read (9 * s.blk + s.pos.toNat) = some e ∧
        t = { s with
          out := s.out.write (8 * s.blk + s.pos.toNat - 1) (s.carry ||| shr e (9 - s.pos.toNat))
          carry := shl8 e s.pos.toNat, pos := s.pos + 1 }) ∨
      (s.pos.toNat = 8 ∧ ∃ e, s.inp.read (9 * s.blk + 8) = some e ∧
        t = { s with
          out := s.out.write (8 * s.blk + 7) (s.carry ||| shr e 1)
          carry := 0, pos := 0, blk := s.blk + 1 }) := by
  unfold unpackMicro at h
  simp only at h
  split at h
  · rename_i h0
    obtain ⟨e, hr, h⟩ := State.readIn_next h
    rw [State.advance_of_lt _ (by simp only; omega)] at h
    cases h
    exact .inl ⟨h0, e, hr, rfl⟩
  · split at h
    · rename_i h0 h7
      obtain ⟨e, hr, h⟩ := State.readIn_next h
      rw [State.advance_of_lt _ (by simp only; omega)] at h
      cases h
      exact .inr (.inl ⟨by omega, h7, e, hr, rfl⟩)
    · split at h
      · rename_i h8
        obtain ⟨e, hr, h⟩ := State.readIn_next h
        rw [State.advance_of_not_lt _ (by simp only; omega)] at h
        cases h
        exact .inr (.inr ⟨h8, e, hr, rfl⟩)
      · cases h

/-- A command reads no more than its input buffer (R46). -/
theorem inLength_le_bufferLength (c : CmdClass) (n : Nat) : inLength c n ≤ bufferLength c n := by
  cases c with
  | par => exact Nat.le_refl 0
  | pack => simp only [inLength, bufferLength]; split <;> omega
  | unpack => simp only [inLength, bufferLength]; split <;> omega
  | reserved => exact Nat.le_refl 0

/-- A true length gives a command every byte it reads (R167). -/
theorem inLength_le_of_lenTrue {o : Offer} (h : o.LenTrue) :
    inLength (opClass o.op) o.len ≤ o.bytes.length := by
  refine (inLength_le_bufferLength _ _).trans ?_
  cases hc : opClass o.op with
  | par => exact Nat.zero_le _
  | pack => exact (h (.inl hc)).le
  | unpack => exact (h (.inr hc)).le
  | reserved => exact Nat.zero_le _

/-- All that the host's offer can answer as a next state (R163 to R170). -/
theorem present_next {o : Offer} {s t : State} (h : s.present o = .next t) :
    s.phase = .idle ∧ s.offered = false ∧ o.WellFormed ∧
      t = { s with
        op := o.op, len := o.len, b := o.b, inp := s.inp.writeList 0 o.bytes, offered := true } := by
  unfold State.present at h
  cases hp : s.phase with
  | run => simp [hp] at h
  | idle =>
    simp only [hp] at h
    split at h
    · cases h
    · split at h
      · cases h
      · split at h
        · cases h
        · split at h
          · cases h
          · rename_i h1 h2 h3 h4
            cases h
            exact ⟨rfl, by simpa using h1,
              ⟨Decidable.of_not_not h2, Decidable.of_not_not h3, Decidable.of_not_not h4⟩, rfl⟩

/-- All that the host's driving of the ports can answer as a next state (log 20). -/
theorem hostDrivePorts_next {s t : State} {op : OpWord} {n : Nat} {v : Byte}
    (h : s.hostDrivePorts op n v = .next t) :
    (s.phase = .run ∨ s.offered = false) ∧ t = s.drivePorts op n v := by
  unfold State.hostDrivePorts at h
  cases hp : s.phase with
  | run =>
    simp only [hp] at h
    cases h
    exact ⟨.inl rfl, rfl⟩
  | idle =>
    simp only [hp] at h
    split at h
    · cases h
    · rename_i ho
      cases h
      exact ⟨.inr (by simpa using ho), rfl⟩

end Sys2Proof.Machine
end

