-- ==== Sys2Proof/Laws/PerInstr.lean ====
section
/-! SUPPORT. Per instruction: each command is well formed, and the decoder reads it back from the table word of
its opcode (30_encoding.md R60, R61). -/

namespace Sys2Proof.Laws

/-- The command is well formed, its opcode fits the port, and the decoder reads it back from the table word. -/
def EncodeWord.Statement (i : Instr) : Prop :=
  i.WellFormed ∧ (encode i).toNat < 2 ^ Config.opW ∧ decodeTableWord 8 (encode i).toNat = some i

theorem EncodeWord.parEven : EncodeWord.Statement .parEven := ⟨trivial, by decide, by decide⟩

theorem EncodeWord.parOdd : EncodeWord.Statement .parOdd := ⟨trivial, by decide, by decide⟩

theorem EncodeWord.packEven : EncodeWord.Statement .packEven := ⟨trivial, by decide, by decide⟩

theorem EncodeWord.packOdd : EncodeWord.Statement .packOdd := ⟨trivial, by decide, by decide⟩

theorem EncodeWord.unpack : EncodeWord.Statement .unpack := ⟨trivial, by decide, by decide⟩

theorem EncodeWord.unpackAlias : EncodeWord.Statement .unpackAlias := ⟨trivial, by decide, by decide⟩

theorem EncodeWord.reserved110 : EncodeWord.Statement .reserved110 := ⟨trivial, by decide, by decide⟩

theorem EncodeWord.reserved111 : EncodeWord.Statement .reserved111 := ⟨trivial, by decide, by decide⟩

end Sys2Proof.Laws
end

