-- ==== Sys2Proof/Tests/Slice0.lean ====
section
/-! SUPPORT. Tests: expected values come from 95_test_vectors.md and the rules named at each test, never from
the model; and for each obligation with hypotheses, concrete states that meet them (test_witness_…). -/

namespace Sys2Proof.Tests

open Sys2Proof.Machine

/-! ## States built for the tests -/

/-- An idle core with `bytes` in `IN`, the right `LEN`, and the byte `v` on `B`. -/
def idleWith (bytes : List Byte) (v : Byte) : State :=
  { State.reset with len := bytes.length, b := v, inp := Memory.writeList [] 0 bytes }

/-- An idle core with a length on `LEN` and no byte in `IN`. -/
def idleLen (n : Nat) : State := { State.reset with len := n }

/-- A core in RUN, with nothing offered. -/
def running (opl : OpWord) (nblk blk : Nat) (pos : BitVec 4) (carry : Byte) (inp out : List Byte) : State :=
  { State.reset with
    phase := .run, opl := opl, nblk := nblk, blk := blk, pos := pos, carry := carry
    inp := Memory.writeList [] 0 inp, out := Memory.writeList [] 0 out }

/-- The raw block of 95_test_vectors.md section 2.2. -/
def raw22 : List Byte := [0x03, 0x07, 0x0F, 0x1F, 0x3F, 0x7F, 0xFE, 0xA5]

/-- Its encoding in mode Even (section 2.2). -/
def even22 : List Byte := [0x03, 0x03, 0xC3, 0xC3, 0xF3, 0xF3, 0xFF, 0xFB, 0x4A]

/-- Its encoding in mode Odd (section 2.2). -/
def odd22 : List Byte := [0x03, 0x83, 0x83, 0xE3, 0xE3, 0xFB, 0xFB, 0xF9, 0x4B]

/-- The result of a command. -/
def resultOf (i : Instr) (s : State) : Option CommandResult := (nextOf (exec i s)).bind State.result

/-- A completion with STATUS OK and these bytes. -/
def okBytes (bytes : List Byte) : Option CommandResult :=
  some { status := .ok, outLen := bytes.length, out := bytes, p := none }

/-- A completion with STATUS OK and this parity bit. -/
def okParity (bit : Bit) : Option CommandResult := some { status := .ok, outLen := 0, out := [], p := some bit }

/-! ## Decoding: words written out from R60 and R61, `CLASS` then `MODE` -/

theorem test_decode_par : decodeTableWord 8 0b00000000 = some .parEven ∧
    decodeTableWord 8 0b00000001 = some .parOdd := by decide

theorem test_decode_pack : decodeTableWord 8 0b00000010 = some .packEven ∧
    decodeTableWord 8 0b00000011 = some .packOdd := by decide

theorem test_decode_unpack : decodeTableWord 8 0b00000100 = some .unpack ∧
    decodeTableWord 8 0b00000101 = some .unpackAlias := by decide

theorem test_decode_reserved : decodeTableWord 8 0b00000110 = some .reserved110 ∧
    decodeTableWord 8 0b00000111 = some .reserved111 := by decide

/-- Three bits are the whole port: 8 is no opcode (R60, log 19). -/
theorem test_decode_above_port : decodeWord 7 = .ok .reserved111 ∧ decodeWord 8 = .error .bitsAboveOp ∧
    decodeTableWord 8 0b00001000 = none := ⟨rfl, rfl, rfl⟩

/-! ## What is ill formed is refused -/

/-- A well-formed offer: PACK.ODD of one block, `OUT` after `IN`. -/
def offer22 : Offer where
  op := 0b011#3
  len := 8
  b := 0
  bytes := raw22
  room := 9
  inBase := 0
  outBase := 8

theorem test_offer_well_formed : offer22.WellFormed := by decide

/-- R167: seven bytes placed, eight claimed. -/
theorem test_offer_len_untrue :
    ¬ ({ offer22 with bytes := raw22.take 7 } : Offer).LenTrue ∧
      State.reset.present { offer22 with bytes := raw22.take 7 } = .refused .lenNotTrue := ⟨by decide, rfl⟩

/-- R167: eight bytes placed, seven claimed; the length is invalid and still not true. -/
theorem test_offer_len_short :
    ¬ ({ offer22 with len := 7 } : Offer).LenTrue ∧
      State.reset.present { offer22 with len := 7 } = .refused .lenNotTrue := ⟨by decide, rfl⟩

/-- R170: eight bytes of room for an output of nine. -/
theorem test_offer_room_short :
    ¬ ({ offer22 with room := 8 } : Offer).RoomEnough ∧
      State.reset.present { offer22 with room := 8 } = .refused .outTooSmall := ⟨by decide, rfl⟩

/-- R165: the first byte of `OUT` is the last byte of `IN`. -/
theorem test_offer_overlap :
    ¬ ({ offer22 with outBase := 7 } : Offer).BuffersDistinct ∧
      State.reset.present { offer22 with outBase := 7 } = .refused .buffersOverlap := ⟨by decide, rfl⟩

/-! ## The commands, at most two tests each -/

/-- R81's worked example, and section 2.1: a byte with an odd number of set bits. -/
theorem test_par_even : resultOf .parEven (idleWith [] 0xA5) = okParity 0 ∧
    resultOf .parEven (idleWith [] 0x2C) = okParity 1 := by decide

/-- R82's worked example; R84: flipping one bit flips the parity. -/
theorem test_par_odd : resultOf .parOdd (idleWith [] 0xA5) = okParity 1 ∧
    resultOf .parOdd (idleWith [] 0x25) = okParity 0 := by decide

/-- R96's worked example; its `B` is ignored. -/
theorem test_pack_even : resultOf .packEven (idleWith raw22 0xFF) = okBytes even22 := by decide

/-- Section 2.7: length 7 is invalid, and no byte of `IN` is needed to say so. -/
theorem test_pack_even_invalid :
    resultOf .packEven (idleLen 7) = some (CommandResult.error .invalidLength) := by decide

/-- R97's worked example. -/
theorem test_pack_odd : resultOf .packOdd (idleWith raw22 0) = okBytes odd22 := by decide

/-- Section 2.9: two blocks, the second starting afresh. -/
theorem test_pack_odd_two_blocks : resultOf .packOdd
      (idleWith [0x48, 0x65, 0x6C, 0x6C, 0x6F, 0x2C, 0x20, 0x77,
        0x6F, 0x72, 0x6C, 0x64, 0x21, 0x0A, 0x00, 0x00] 0) =
    okBytes [0x48, 0xB2, 0xDB, 0x2D, 0x96, 0xF9, 0x60, 0x80, 0xEF,
      0x6F, 0xB9, 0x5B, 0x2C, 0x82, 0x18, 0x54, 0x02, 0x01] := by decide

/-- Section 2.5: parity bits inconsistent with either mode. -/
theorem test_unpack : resultOf .unpack (idleWith [0x12, 0x34, 0x56, 0x78, 0x9A, 0xBC, 0xDE, 0xF0, 0x0F] 0) =
    okBytes [0x12, 0x68, 0x59, 0xC4, 0xAB, 0x9B, 0xBC, 0x07] := by decide

/-- Section 2.7: 8 and 10 are invalid. -/
theorem test_unpack_invalid :
    resultOf .unpack (idleLen 8) = some (CommandResult.error .invalidLength) ∧
      resultOf .unpack (idleLen 10) = some (CommandResult.error .invalidLength) := by decide

/-- R113's worked example, by the opcode with the mode bit set (section 2.8). -/
theorem test_unpack_alias : resultOf .unpackAlias (idleWith odd22 0) = okBytes raw22 := by decide

/-- Section 2.8 with `LEN = 9`. -/
theorem test_reserved110 :
    resultOf .reserved110 (idleWith odd22 0) = some (CommandResult.error .illegalCommand) := by decide

theorem test_reserved111 :
    resultOf .reserved111 (idleWith odd22 0) = some (CommandResult.error .illegalCommand) := by decide

/-- R99, R118: the empty buffer is a legal buffer. -/
theorem test_empty_buffers : resultOf .packEven (idleLen 0) = okBytes [] ∧
    resultOf .unpack (idleLen 0) = okBytes [] := by decide

/-! ## One micro-step -/

/-- Section 2.2, mode Odd, row 3: `E3` is written and `E0` is carried. -/
theorem test_pack_micro_step :
    (nextOf (step (running 0b011 1 0 3 0xC0 raw22 [0x03, 0x83, 0x83]))).map
      (fun t => (t.out.readList 0 4, t.carry, t.pos)) =
    some (some [0x03, 0x83, 0x83, 0xE3], 0xE0, 4) := by decide

/-- Section 2.6, row 3: `0F` is written and `18` is carried. -/
theorem test_unpack_micro_step :
    (nextOf (step (running 0b100 1 0 3 0x0C odd22 [0x03, 0x07]))).map
      (fun t => (t.out.readList 0 3, t.carry, t.pos)) =
    some (some [0x03, 0x07, 0x0F], 0x18, 4) := by decide

/-! ## The step, the host's port, the notation -/

/-- A command offered after reset is executed by the very next step: `LEN = 0`, so PACK.ODD gives an empty
output (R99). -/
theorem test_step_from_reset :
    (nextOf (step (State.reset.withFetchWord 8 0b00000011))).map (fun t => (t.status, t.outLen, t.phase)) =
      some (some .ok, some 0, .idle) := by decide

/-- P3 of section 3, lines 1 and 2: a failed command leaves nothing behind. -/
theorem test_error_then_command :
    runOffers [{ offer22 with len := 7, bytes := raw22.take 7 }, offer22] State.reset =
      some [CommandResult.error .invalidLength,
        { status := .ok, outLen := 9, out := odd22, p := none }] := by decide

/-- U8, U9: nothing can be read after reset. -/
theorem test_read_after_reset : State.reset.hostReadStatus = .error .resultPortHasNoValue ∧
    State.reset.hostReadP = .error .resultPortHasNoValue ∧
    State.reset.hostReadOut 0 = .error .outByteHasNoValue := ⟨rfl, rfl, rfl⟩

/-- R70: a line of the notation is its command, and its result is printed as the rule says. -/
theorem test_asm_line :
    parseLine ["odd", "03", "07", "0F", "1f", "3F", "7F", "FE", "A5"] = some (.odd raw22) ∧
      showResult (resultAlone (AsmLine.odd raw22).offer) =
        some ["->", "OK:", "03", "83", "83", "E3", "E3", "FB", "FB", "F9", "4B"] := by decide

theorem test_asm_other_lines :
    parseLine ["remove"] = some (.remove []) ∧ parseLine ["par.even", "A5"] = some (.parEven 0xA5) ∧
      showResult (resultAlone (AsmLine.parEven 0xA5).offer) = some ["->", "OK:", "P=0"] ∧
      showResult (resultAlone (AsmLine.odd (raw22.take 7)).offer) = some ["->", "InvalidLength"] := by decide

/-! ## Witnesses: the hypotheses of each obligation are met -/

/-- O3: the two sides of the boundary. -/
theorem test_witness_OpcodeFieldsAndRange : ¬ (8 ≤ 7) ∧ decodeWord 7 ≠ .error .bitsAboveOp ∧
    decodeWord 8 = .error .bitsAboveOp := ⟨by decide, by decide, rfl⟩

/-- O6. -/
theorem test_witness_ResetDuringCommandLeavesNoResult :
    (running 0b011 1 0 3 0xC0 raw22 [0x03, 0x83, 0x83]).phase = .run := rfl

/-- O9: bit 7 of a byte (section 2.1). -/
theorem test_witness_ParityIsLinear : (7 : Nat) < 8 ∧ par 0 0x00 = 0 ∧ par 0 (0x00 ^^^ bitAt 1 7) = 1 := by
  decide

/-- O10, O11, O14: an idle core. -/
theorem test_witness_idle : State.reset.phase = .idle ∧ (idleWith raw22 0xA5).phase = .idle := ⟨rfl, rfl⟩

/-- O12, O13, O35: every command is ready in some state, the buffer commands with a block to read. -/
theorem test_witness_Ready : State.Ready .parEven (idleWith [] 1) ∧ State.Ready .parOdd (idleWith [] 1) ∧
    State.Ready .packEven (idleWith raw22 0) ∧ State.Ready .packOdd (idleWith raw22 0) ∧
    State.Ready .unpack (idleWith odd22 0) ∧ State.Ready .unpackAlias (idleWith odd22 0) ∧
    State.Ready .reserved110 (idleLen 9) ∧ State.Ready .reserved111 (idleLen 9) := by
  unfold State.Ready; decide

/-- O12: both sides of the equivalence. -/
theorem test_witness_IllegalCommandExactly :
    ((nextOf (exec .reserved110 (idleLen 9))).bind State.status = some .illegalCommand ∧
      (encode .reserved110).toNat / 2 = 3) ∧
    (nextOf (exec .unpackAlias (idleWith odd22 0))).bind State.status = some .ok ∧
      (encode .unpackAlias).toNat / 2 = 2 := by decide

/-- O13: lengths around the boundary, by both classes. -/
theorem test_witness_InvalidLengthExactly :
    (idleLen 7).phase = .idle ∧ (idleLen 7).len % 8 ≠ 0 ∧ (idleLen 9).len % 8 ≠ 0 ∧
      (idleLen 8).len % 9 ≠ 0 ∧ (idleLen 10).len % 9 ≠ 0 ∧ (idleLen 0).len % 8 = 0 := by decide

/-- O15, O16: a command that fails, of each kind. -/
theorem test_witness_failed : ∃ t u, exec .packEven (idleLen 7) = .next t ∧ t.status = some .invalidLength ∧
    exec .reserved111 (idleLen 9) = .next u ∧ u.status = some .illegalCommand := ⟨_, _, rfl, rfl, rfl, rfl⟩

/-- O17, O18: a whole block, an empty buffer, and a length that is invalid. -/
theorem test_witness_PackOutput :
    (idleWith raw22 0).phase = .idle ∧ (idleWith raw22 0).len % 8 = 0 ∧ 0 < (idleWith raw22 0).len / 8 ∧
      (∀ a, a < (idleWith raw22 0).len → (idleWith raw22 0).inp.read a = some (raw22.getD a 0)) ∧
      (idleLen 0).len % 8 = 0 ∧ (idleLen 7).len % 8 ≠ 0 := by decide

/-- O19: the last byte of a block and its bits. -/
theorem test_witness_PackedStreamIsSymbols : raw22.length % 8 = 0 ∧ 7 < raw22.length ∧
    streamBit (packBytes 1 raw22) (9 * 7 + 7) = some true ∧
    streamBit (packBytes 1 raw22) (9 * 7 + 8) = some true := by decide

/-- O22, O23: buffers of whole blocks. -/
theorem test_witness_wholeRawBlocks : raw22.length % 8 = 0 ∧ ([] : List Byte).length % 8 = 0 ∧
    packBytes 1 raw22 = packBytes 1 raw22 := by decide

/-- O24: a whole block by either opcode, and a length that is invalid. -/
theorem test_witness_UnpackOutput :
    (idleWith odd22 0).phase = .idle ∧ (idleWith odd22 0).len % 9 = 0 ∧ 0 < (idleWith odd22 0).len / 9 ∧
      (∀ a, a < (idleWith odd22 0).len → (idleWith odd22 0).inp.read a = some (odd22.getD a 0)) ∧
      (idleLen 10).len % 9 ≠ 0 := by decide

/-- O25: a next state, and a refusal. -/
theorem test_witness_UnpackAliasExecutesAsUnpack : (idleWith odd22 0).phase = .idle ∧
    (∃ t, exec .unpack (idleWith odd22 0) = .next t) ∧
    exec .unpack (idleLen 9) = .refused .inByteHasNoValue := ⟨rfl, ⟨_, rfl⟩, rfl⟩

/-- O26: the last symbol of section 2.6. -/
theorem test_witness_UnpackedBlockFromNumber : 7 < 8 ∧
    bigEndian odd22 / 2 ^ (9 * (7 - 7)) % 512 / 2 = 0xA5 := by decide

/-- O27: section 2.5, two different buffers that differ in parity positions only. -/
theorem test_witness_UnpackIgnoresParityBits :
    ∃ x y : List Byte, x ≠ y ∧ x.length = y.length ∧
      ∀ (a : Nat) (hx : a < x.length) (hy : a < y.length),
        x[a] &&& ~~~(parMask (a % 9)) = y[a] &&& ~~~(parMask (a % 9)) :=
  ⟨[0, 0, 0, 0, 0, 0, 0, 0, 0], [0x00, 0x80, 0x40, 0x20, 0x10, 0x08, 0x04, 0x02, 0x01],
    by decide, rfl, by decide⟩

/-- O28: whole encoded blocks. -/
theorem test_witness_UnpackLengthAndConcatenation : odd22.length % 9 = 0 ∧
    ([] : List Byte).length % 9 = 0 := by decide

/-- O29: a raw buffer of one block, in both modes. -/
theorem test_witness_UnpackAfterPackIsIdentity : raw22.length % 8 = 0 ∧
    unpackBytes (packBytes 0 raw22) = raw22 ∧ unpackBytes (packBytes 1 raw22) = raw22 := by decide

/-- O30: a buffer where it holds, and R116's example where it does not. -/
theorem test_witness_PackAfterUnpackExactly : odd22.length % 9 = 0 ∧
    packBytes 1 (unpackBytes odd22) = odd22 ∧
    packBytes 1 (unpackBytes [0xA5, 0xA5, 0xA5, 0xA5, 0xA5, 0xA5, 0xA5, 0xA5, 0xA5]) =
      [0xA5, 0xA5, 0xE5, 0xA5, 0xB5, 0xAD, 0xA5, 0xA7, 0xA5] := by decide

/-- O31: a packed block put into another idle core. -/
theorem test_witness_RoundTripOnTheMachine : ∃ t u : State, exec .packOdd (idleWith raw22 0) = .next t ∧
    t.status = some .ok ∧ u.phase = .idle ∧ some u.len = t.outLen ∧
    ∀ a, a < u.len → u.inp.read a = t.out.read a :=
  ⟨_, idleWith odd22 0, rfl, rfl, rfl, rfl, by decide⟩

/-- O32, O33: the first and the last step (R68's table). -/
theorem test_witness_step_constants :
    (0 ≤ 8 ∧ carryMask 0 = 0x00 ∧ parMask 0 = 0x00 ∧ curMask 0 = 0xFF) ∧
    (8 ≤ 8 ∧ carryMask 8 = 0xFE ∧ parMask 8 = 0x01 ∧ curMask 8 = 0x00) ∧
    encByte 1 7 0xFE 0xA5 &&& carryMask 7 = 0xF8 ∧ encByte 1 1 0x03 0x07 &&& parMask 1 = 0x80 ∧
    encLast 1 0xA5 &&& carryMask 8 = 0x4A ∧ encLast 1 0xA5 &&& parMask 8 = 0x01 := by decide

/-- O34: the last stream bit of a buffer. -/
theorem test_witness_StreamBitsAreTheNumeral : 71 < 8 * odd22.length ∧
    streamBit odd22 71 = some true := by decide

/-- O36: a missing byte, and none missing. -/
theorem test_witness_MissingInputIsRefused : (idleLen 8).phase = .idle ∧ (idleLen 8).inp.read 7 = none ∧
    7 < inLength (opClass (encode .packEven)) (idleLen 8).len ∧
    ¬ 7 < inLength (opClass (encode .packEven)) (idleLen 9).len := by decide

/-- O37, O46: a core in RUN, and one with an offer there. -/
theorem test_witness_run : (running 0b011 1 0 3 0xC0 raw22 []).phase = .run ∧
    ({ running 0b011 1 0 3 0xC0 raw22 [] with offered := true } : State).offered = true := ⟨rfl, rfl⟩

/-- O38, O39, O40: a parity command and a buffer command that complete, and a core that agrees on what they
read and on nothing else. -/
theorem test_witness_completed :
    (∃ t, exec .parOdd (idleWith [] 3) = .next t ∧ t.status = some .ok) ∧
    (∃ t, exec .packOdd (idleWith raw22 0) = .next t ∧ t.status = some .ok) ∧
    ({ idleWith raw22 0 with carry := 9, nblk := 7, opl := 5, op := 1 } : State).phase = .idle ∧
    ∀ k, k < 8 → ({ idleWith raw22 0 with carry := 9, nblk := 7, opl := 5, op := 1 } : State).inp.read k =
      (idleWith raw22 0).inp.read k := ⟨⟨_, rfl, rfl⟩, ⟨_, rfl, rfl⟩, rfl, by decide⟩

/-- O41: `LEN_W = 8` and section 2.7's length 248, whose output needs nine bits. -/
theorem test_witness_OutputLengthFitsOneMoreBit : 248 < 2 ^ 8 ∧ outLength .pack 248 = 279 ∧
    ¬ 279 < 2 ^ 8 := by decide

/-- O42: the four clauses. -/
theorem test_witness_StepRunsTheDecodedCommand :
    (({ State.reset with offered := true } : State).phase = .idle ∧
      ({ State.reset with offered := true } : State).offered = true) ∧
    State.reset.offered = false ∧ (running 0b011 1 0 0 0 raw22 []).offered = false ∧ (3 : Nat) ≤ 3 :=
  ⟨⟨rfl, rfl⟩, rfl, rfl, Nat.le_refl 3⟩

/-- O43: a pack and an unpack of valid length, one of them empty. -/
theorem test_witness_AcceptanceLatchesTheCommand : (idleWith raw22 0).phase = .idle ∧
    opClass (encode .packOdd) = .pack ∧ lengthOk .pack (idleWith raw22 0).len = true ∧
    opClass (encode .unpackAlias) = .unpack ∧ lengthOk .unpack (idleLen 0).len = true := by decide

/-- O44, O47: the first, the second, the eighth and the last step of a packed block. -/
theorem test_witness_PackMicroStep :
    opClass (0b011 : OpWord) = .pack ∧ (0 : Nat) < 1 ∧
    (running 0b011 1 0 0 0 raw22 []).inp.read (8 * 0) = some 0x03 ∧
    (running 0b011 1 0 1 0 raw22 []).pos.toNat = 1 ∧
    (running 0b011 1 0 1 0 raw22 []).inp.read (8 * 0 + 1 - 1) = some 0x03 ∧
    (running 0b011 1 0 7 0 raw22 []).pos.toNat = 7 ∧
    (running 0b011 1 0 7 0 raw22 []).inp.read (8 * 0 + 7) = some 0xA5 ∧
    (running 0b011 1 0 8 0 raw22 []).pos.toNat = 8 := by decide

/-- O45: the first, a middle and the last step of an unpacked block. -/
theorem test_witness_UnpackMicroStep :
    opClass (0b101 : OpWord) = .unpack ∧ (0 : Nat) < 1 ∧
    (running 0b101 1 0 0 0 odd22 []).inp.read (9 * 0 + 0) = some 0x03 ∧
    (running 0b101 1 0 7 0 odd22 []).pos.toNat = 7 ∧
    (running 0b101 1 0 7 0 odd22 []).inp.read (9 * 0 + 7) = some 0xF9 ∧
    (running 0b101 1 0 8 0 odd22 []).pos.toNat = 8 ∧
    (running 0b101 1 0 8 0 odd22 []).inp.read (9 * 0 + 8) = some 0x4B := by decide

/-- O48: an offered buffer command, and an offered error. -/
theorem test_witness_MicroStepsRefineTheTransaction :
    ({ idleWith raw22 0 with op := 0b011, offered := true } : State).phase = .idle ∧
    ({ idleWith raw22 0 with op := 0b011, offered := true } : State).offered = true ∧
    opClass (0b011 : OpWord) = .pack ∧ lengthOk .pack (idleWith raw22 0).len = true ∧
    lengthOk .unpack (idleWith raw22 0).len = false := by decide

/-- O49: two blocks taken in descending order, for each class. -/
theorem test_witness_BlocksInAnyOrder :
    (∃ t, exec .packOdd (idleWith (raw22 ++ raw22) 0) = .next t ∧ t.status = some .ok) ∧
    [1, 0].Perm (List.range ((idleWith (raw22 ++ raw22) 0).len / 8)) ∧
    (∃ t, exec .unpack (idleWith (odd22 ++ odd22) 0) = .next t ∧ t.status = some .ok) ∧
    [1, 0].Perm (List.range ((idleWith (odd22 ++ odd22) 0).len / 9)) :=
  ⟨⟨_, rfl, rfl⟩, by decide, ⟨_, rfl, rfl⟩, by decide⟩

/-- O51 to O55: an idle core with a command offered meets the invariant and takes a step. -/
theorem test_witness_Inv_idle : ({ idleWith raw22 0 with op := 0b011, offered := true } : State).Inv ∧
    ∃ t, step { idleWith raw22 0 with op := 0b011, offered := true } = .next t := by
  refine ⟨⟨⟨by decide, rfl⟩, by decide, ⟨rfl, ?_, ?_, ?_⟩, ?_, ?_, ?_, ?_⟩, ⟨_, rfl⟩⟩
  · intro h; cases h
  · intro e h; cases h
  · intro l h; cases h
  · intro _; exact ⟨rfl, rfl, rfl⟩
  · intro h; cases h
  · intro h; cases h
  · intro h; cases h

/-- O51, O52, O54: a packer in the middle of a block meets the invariant and takes a step. -/
theorem test_witness_Inv_pack : (running 0b011 1 0 3 0xC0 raw22 [0x03, 0x83, 0x83]).Inv ∧
    ∃ t, stepMicro (running 0b011 1 0 3 0xC0 raw22 [0x03, 0x83, 0x83]) = .next t := by
  refine ⟨⟨⟨by decide, by decide⟩, by decide, ⟨rfl, ?_, ?_, ?_⟩, ?_, ?_, ?_, ?_⟩, ⟨_, rfl⟩⟩
  · intro h; cases h
  · intro e h; cases h
  · intro l h; cases h
  · intro h; cases h
  · intro _; exact ⟨.inl (by decide), rfl, rfl, rfl, by decide, by decide⟩
  · intro _; exact ⟨by decide, fun _ _ => ⟨0x0F, by decide, by decide⟩, fun _ h => by revert h; decide⟩
  · intro _; exact ⟨fun _ => by unfold State.OutWritten; decide, fun h => absurd h (by decide)⟩

/-- O51, O52, O54: an unpacker in the middle of a block meets the invariant and takes a step. -/
theorem test_witness_Inv_unpack : (running 0b100 1 0 3 0x0C odd22 [0x03, 0x07]).Inv ∧
    ∃ t, stepMicro (running 0b100 1 0 3 0x0C odd22 [0x03, 0x07]) = .next t := by
  refine ⟨⟨⟨by decide, by decide⟩, by decide, ⟨rfl, ?_, ?_, ?_⟩, ?_, ?_, ?_, ?_⟩, ⟨_, rfl⟩⟩
  · intro h; cases h
  · intro e h; cases h
  · intro l h; cases h
  · intro h; cases h
  · intro _; exact ⟨.inr (by decide), rfl, rfl, rfl, by decide, by decide⟩
  · intro _; exact ⟨by decide, fun _ h => by revert h; decide, fun _ _ => ⟨0x83, by decide, by decide⟩⟩
  · intro _; exact ⟨fun h => absurd h (by decide), fun _ => by unfold State.OutWritten; decide⟩

/-- O53: the host's moves answer next states. -/
theorem test_witness_HostMovesKeepInvariant : (∃ t, State.reset.present offer22 = .next t) ∧
    (∃ t, State.reset.hostWriteIn 0 1 = .next t) ∧ (∃ t, State.reset.hostWriteOut 0 1 = .next t) ∧
    ∃ t, State.reset.hostDrivePorts 1 2 3 = .next t :=
  ⟨⟨_, rfl⟩, ⟨_, rfl⟩, ⟨_, rfl⟩, ⟨_, rfl⟩⟩

/-- O56, O58, O59: well-formed offers to an idle core with none standing. -/
theorem test_witness_offers : (∀ o ∈ [offer22, { offer22 with len := 7, bytes := raw22.take 7 }], o.WellFormed) ∧
    State.reset.phase = .idle ∧ State.reset.offered = false ∧ ∃ t, State.reset.present offer22 = .next t :=
  ⟨by decide, rfl, rfl, ⟨_, rfl⟩⟩

/-- O57: the last byte of a command, held off and then free, in each of the clauses; with a length that is
invalid too; and the ports while an offer stands and after it is dropped. -/
theorem test_witness_HostWritesAreHeldOff :
    (7 < bufferLength (opClass (0b011 : OpWord)) 8 ∧ ¬ 8 < bufferLength (opClass (0b011 : OpWord)) 8) ∧
    ({ idleWith (raw22.take 7) 0 with op := 0b011, offered := true } : State).hostWriteIn 6 0 =
      .refused .inWrittenDuringCommand ∧
    ({ idleWith raw22 0 with op := 0b011, offered := true } : State).hostDrivePorts 0 0 0 =
      .refused .portsDrivenDuringOffer ∧
    (∃ t, ({ idleWith raw22 0 with op := 0b011, offered := true } : State).drop.hostDrivePorts 0 0 0 =
      .next t) ∧
    (∃ t, (running 0b010 1 0 0 0 raw22 []).hostDrivePorts 0 0 0 = .next t) ∧
    ({ idleWith raw22 0 with op := 0b011, offered := true } : State).hostWriteIn 7 0 =
      .refused .inWrittenDuringCommand ∧
    opClass (0b010 : OpWord) = .pack ∧ 7 < 8 * 1 ∧ opClass (0b100 : OpWord) = .unpack ∧ 8 < 9 * 1 ∧
    (running 0b010 1 0 0 0 raw22 []).hostWriteIn 7 0 = .refused .inWrittenDuringCommand ∧
    (running 0b100 1 0 0 0 odd22 []).hostWriteIn 8 0 = .refused .inWrittenDuringCommand ∧
    (running 0b100 1 0 0 0 odd22 []).hostWriteOut 0 0 = .refused .outWrittenDuringCommand :=
  ⟨by decide, rfl, rfl, ⟨_, rfl⟩, ⟨_, rfl⟩, rfl, by decide, by decide, by decide, by decide, rfl, rfl, rfl⟩

end Sys2Proof.Tests
end

section
/-! SUPPORT. Reading a list of bytes of `IN`, as a continuation: the list form of `State.readIn`, so that the
reads of many micro-steps and the one read of a command meet in one form. -/

namespace Sys2Proof.Machine

/-- Read `IN[i..i+n-1]` and go on with the bytes; a byte without a value gives the run no meaning (R167). -/
def State.readInList (s : State) (i n : Nat) (k : List Byte → Host.Outcome State Fault Refusal) :
    Host.Outcome State Fault Refusal :=
  match s.inp.readList i n with
  | some vs => k vs
  | none => .refused .inByteHasNoValue

/-- A list read that succeeds goes on with the bytes. -/
theorem State.readInList_some {s : State} {i n : Nat} {vs : List Byte}
    (k : List Byte → Host.Outcome State Fault Refusal) (h : s.inp.readList i n = some vs) :
    s.readInList i n k = k vs := by
  simp [State.readInList, h]

theorem State.readInList_none {s : State} {i n : Nat}
    (k : List Byte → Host.Outcome State Fault Refusal) (h : s.inp.readList i n = none) :
    s.readInList i n k = .refused .inByteHasNoValue := by
  simp [State.readInList, h]

@[simp] theorem State.readInList_zero (s : State) (i : Nat)
    (k : List Byte → Host.Outcome State Fault Refusal) : s.readInList i 0 k = k [] := rfl

/-- A list read is the read of its first byte, then of the rest. -/
theorem State.readInList_succ (s : State) (i n : Nat) (k : List Byte → Host.Outcome State Fault Refusal) :
    s.readInList i (n + 1) k = s.readIn i fun v => s.readInList (i + 1) n fun vs => k (v :: vs) := by
  cases hv : s.inp.read i with
  | none => simp [State.readInList, Memory.readList, hv]
  | some v => cases hvs : s.inp.readList (i + 1) n <;> simp [State.readInList, Memory.readList, hv, hvs]

/-- A list read in two parts. -/
theorem State.readInList_add (s : State) (i a b : Nat) (k : List Byte → Host.Outcome State Fault Refusal) :
    s.readInList i (a + b) k =
      s.readInList i a fun xs => s.readInList (i + a) b fun ys => k (xs ++ ys) := by
  induction a generalizing i k with
  | zero => simp
  | succ a ih =>
    rw [show a + 1 + b = a + b + 1 by omega, State.readInList_succ, State.readInList_succ]
    simp only [ih, List.cons_append, show i + 1 + a = i + (a + 1) by omega]

/-- What follows a list read need agree only on lists of the length read. -/
theorem State.readInList_congr (s : State) (i n : Nat) {k k' : List Byte → Host.Outcome State Fault Refusal}
    (h : ∀ vs, vs.length = n → k vs = k' vs) : s.readInList i n k = s.readInList i n k' := by
  cases hr : s.inp.readList i n with
  | none => rw [State.readInList_none k hr, State.readInList_none k' hr]
  | some vs =>
    rw [State.readInList_some k hr, State.readInList_some k' hr,
      h vs ((Memory.readList_eq_some _ _ _ _).mp hr).1]

end Sys2Proof.Machine
end

section
/-! SUPPORT. Packing and unpacking of a buffer taken in two parts, the first of whole blocks (41_pack.md R99,
42_unpack.md R118). -/

namespace Sys2Proof.Machine

/-- Packing whole blocks and then more bytes is packing each part. -/
theorem packBytes_append (m : Bit) (xs ys : List Byte) (h : xs.length % 8 = 0) :
    packBytes m (xs ++ ys) = packBytes m xs ++ packBytes m ys := by
  refine rawBlocks_induction (P := fun xs => packBytes m (xs ++ ys) = packBytes m xs ++ packBytes m ys)
    rfl ?_ xs h
  intro r0 r1 r2 r3 r4 r5 r6 r7 rest _ ih
  simp only [List.cons_append, packBytes_block, ih, List.append_assoc]

/-- Unpacking whole blocks and then more bytes is unpacking each part. -/
theorem unpackBytes_append (xs ys : List Byte) (h : xs.length % 9 = 0) :
    unpackBytes (xs ++ ys) = unpackBytes xs ++ unpackBytes ys := by
  refine encBlocks_induction (P := fun xs => unpackBytes (xs ++ ys) = unpackBytes xs ++ unpackBytes ys)
    rfl ?_ xs h
  intro e0 e1 e2 e3 e4 e5 e6 e7 e8 rest _ ih
  simp only [List.cons_append, unpackBytes_block, ih, List.append_assoc]

end Sys2Proof.Machine
end

section
/-! SUPPORT. The commands by class, at both levels: `exec` answers what its class and mode say, and the
acceptance of the micro-step machine answers the same unless it starts a buffer command (43_sequencing.md R126). -/

namespace Sys2Proof.Machine

/-- The opcode of the command that an opcode spells is that opcode (R61). -/
theorem encode_decode (op : OpWord) : encode (decode op) = op := by
  revert op; decide

/-- The meaning of a command by the class and the mode of its opcode (R60, R61). -/
theorem exec_eq_of_class (i : Instr) (s : State) :
    exec i s =
      match opClass (encode i) with
      | .par => parCommand (opMode (encode i)) (encode i) s
      | .pack => packCommand (opMode (encode i)) (encode i) s
      | .unpack => unpackCommand (encode i) s
      | .reserved => reservedCommand s := by
  cases i <;> rfl

/-- A pack command of `n` whole blocks: one read of the whole input, then completion (R98). -/
theorem packCommand_eq_readInList (m : Bit) (op : OpWord) (s : State) {n : Nat} (h : s.phase = .idle)
    (hl : s.len = 8 * n) :
    packCommand m op s = s.readInList 0 (8 * n) fun raw =>
      .next ((((s.accept.latch op n).writeOut (packBytes m raw)).endBlocks).completeBuffer (9 * n)) := by
  have hmod : s.len % 8 = 0 := by omega
  have hdiv : s.len / 8 = n := by omega
  have hout : s.len + s.len / 8 = 9 * n := by omega
  rw [← hl]
  cases hr : s.inp.readList 0 s.len with
  | none => rw [packCommand_missing m op s h hmod hr, State.readInList_none _ hr]
  | some raw => rw [packCommand_valid m op s raw h hmod hr, State.readInList_some _ hr, hout, hdiv]

/-- An unpack command of `n` whole blocks: one read of the whole input, then completion (R114). -/
theorem unpackCommand_eq_readInList (op : OpWord) (s : State) {n : Nat} (h : s.phase = .idle)
    (hl : s.len = 9 * n) :
    unpackCommand op s = s.readInList 0 (9 * n) fun enc =>
      .next ((((s.accept.latch op n).writeOut (unpackBytes enc)).endBlocks).completeBuffer (8 * n)) := by
  have hmod : s.len % 9 = 0 := by omega
  have hdiv : s.len / 9 = n := by omega
  have hout : s.len - s.len / 9 = 8 * n := by omega
  rw [← hl]
  cases hr : s.inp.readList 0 s.len with
  | none => rw [unpackCommand_missing op s h hmod hr, State.readInList_none _ hr]
  | some enc => rw [unpackCommand_valid op s enc h hmod hr, State.readInList_some _ hr, hout, hdiv]

/-- The acceptance of a buffer command of valid length starts its first block (R126, R162). -/
theorem microAccept_of_valid {i : Instr} {s : State} (h : s.phase = .idle)
    (hc : opClass (encode i) = .pack ∨ opClass (encode i) = .unpack)
    (hl : lengthOk (opClass (encode i)) s.len = true) :
    microAccept i s =
      .next ((s.accept.latch (encode i) (blockCount (opClass (encode i)) s.len)).startBlock) := by
  rcases hc with hc | hc <;> rw [hc] at hl ⊢ <;>
    simp only [microAccept, State.accepted_idle s _ h, hc, State.accept_len, hl, if_true]

/-- Where the acceptance starts no buffer command, it is the whole of the command (R126, R129, R145). -/
theorem microAccept_eq_exec {i : Instr} {s : State} (h : s.phase = .idle)
    (hv : ¬ ((opClass (encode i) = .pack ∨ opClass (encode i) = .unpack) ∧
      lengthOk (opClass (encode i)) s.len = true)) :
    microAccept i s = exec i s := by
  rw [exec_eq_of_class, microAccept, State.accepted_idle s _ h]
  cases hc : opClass (encode i) with
  | par => simp [hc, parCommand_idle _ _ s h]
  | reserved => simp [hc, reservedCommand_idle s h]
  | pack =>
    have hl : s.len % 8 ≠ 0 := by simpa [hc] using hv
    simp [hc, packCommand_invalid _ _ s h hl, hl]
  | unpack =>
    have hl : s.len % 9 ≠ 0 := by simpa [hc] using hv
    simp [hc, unpackCommand_invalid _ s h hl, hl]

end Sys2Proof.Machine
end

section
/-! SUPPORT. The micro-steps of one block: an equation for each position of `packMicro` and `unpackMicro`
(41_pack.md R100, 42_unpack.md R117), and the run of the micro-step machine over a whole block. -/

namespace Sys2Proof.Machine

/-- Where a micro-step that does not end its block leaves the core: `OUT` and the carry written, the position
one higher (R127). -/
def State.nextPos (out : Memory) (carry : Byte) (s : State) : State :=
  { s with out := out, carry := carry, pos := s.pos + 1 }

/-- Where the micro-steps of `k` blocks that store `bytes` from `OUT[i]` leave the core: at the start of
the block after them (R127, R162). -/
def State.afterBlocks (k i : Nat) (bytes : List Byte) (s : State) : State :=
  { s with out := s.out.writeList i bytes, carry := 0, pos := 0, blk := s.blk + k }

/-- The position counter does not wrap within a block (R23). -/
theorem State.toNat_pos_nextPos {s : State} (out : Memory) (carry : Byte) (h : s.pos.toNat < 8) :
    (s.nextPos out carry).pos.toNat = s.pos.toNat + 1 := by
  simp only [State.nextPos]; bv_omega

/-- The first step of a packed block stores the raw byte itself. -/
theorem packMicro_first (s : State) (h : s.pos.toNat = 0) :
    packMicro s = s.readIn (8 * s.blk) fun cur =>
      .next (s.nextPos (s.out.write (9 * s.blk) cur) (shl8 cur 8)) := by
  simp [packMicro, State.advance, State.nextPos, h]

/-- The steps in the middle of a packed block store the carry, the parity bit and the current byte. -/
theorem packMicro_middle (s : State) {prev : Byte} (h1 : 1 ≤ s.pos.toNat) (h7 : s.pos.toNat ≤ 7)
    (hp : s.inp.read (8 * s.blk + s.pos.toNat - 1) = some prev) :
    packMicro s = s.readIn (8 * s.blk + s.pos.toNat) fun cur =>
      .next (s.nextPos
        (s.out.write (9 * s.blk + s.pos.toNat)
          (s.carry ||| bitAt (par (opMode s.opl) prev) (8 - s.pos.toNat) ||| shr cur s.pos.toNat))
        (shl8 cur (8 - s.pos.toNat))) := by
  have h0 : s.pos.toNat ≠ 0 := by omega
  have h8 : s.pos.toNat < 8 := by omega
  simp only [packMicro, h0, h7, if_false, if_true, State.readIn_some _ _ _ _ hp, State.advance, h8,
    State.nextPos]

/-- The last step of a packed block stores the carry and the parity bit, and starts the next block. -/
theorem packMicro_last (s : State) {prev : Byte} (h8 : s.pos.toNat = 8)
    (hp : s.inp.read (8 * s.blk + 7) = some prev) :
    packMicro s = .next
      (s.afterBlocks 1 (9 * s.blk + 8) [s.carry ||| bitAt (par (opMode s.opl) prev) 0]) := by
  simp [packMicro, State.advance, State.afterBlocks, h8, hp]

/-- The first step of an unpacked block only keeps the byte it reads. -/
theorem unpackMicro_first (s : State) (h : s.pos.toNat = 0) :
    unpackMicro s = s.readIn (9 * s.blk) fun e => .next (s.nextPos s.out e) := by
  simp [unpackMicro, State.advance, State.nextPos, h]

/-- The steps in the middle of an unpacked block store the carry and the high bits of the byte read. -/
theorem unpackMicro_middle (s : State) {j : Nat} (h : s.pos.toNat = j + 1) (hj : j < 7) :
    unpackMicro s = s.readIn (9 * s.blk + (j + 1)) fun e =>
      .next (s.nextPos (s.out.write (8 * s.blk + j) (s.carry ||| shr e (8 - j))) (shl8 e (j + 1))) := by
  have h7 : j + 1 ≤ 7 := by omega
  have h8 : j + 1 < 8 := by omega
  have hshr : 9 - (j + 1) = 8 - j := by omega
  simp only [unpackMicro, h, Nat.add_one_ne_zero, h7, if_false, if_true, State.advance, h8, State.nextPos,
    hshr, ← Nat.add_assoc, Nat.add_sub_cancel]

/-- The last step of an unpacked block stores its last byte and starts the next block. -/
theorem unpackMicro_last (s : State) (h8 : s.pos.toNat = 8) :
    unpackMicro s = s.readIn (9 * s.blk + 8) fun e =>
      .next (s.afterBlocks 1 (8 * s.blk + 7) [s.carry ||| shr e 1]) := by
  simp [unpackMicro, State.advance, State.afterBlocks, h8]

/-- One step more is the first step and then the rest. -/
theorem microRun_succ_of_next {s t : State} (n : Nat) (h : stepMicro s = .next t) :
    microRun (n + 1) s = microRun n t := by
  simp [microRun, h]

/-- A first step that reads one byte of `IN`: the rest of the run goes on with it. -/
theorem microRun_succ_of_readIn {s : State} {i : Nat} {t : Byte → State} (n : Nat)
    (h : stepMicro s = s.readIn i fun v => .next (t v)) :
    microRun (n + 1) s = s.readIn i fun v => microRun n (t v) := by
  cases hr : s.inp.read i <;> simp [microRun, h, hr]

theorem microRun_one (s : State) : microRun 1 s = stepMicro s := by
  cases h : stepMicro s <;> simp [microRun, h]

/-- The command latched with opcode `op` is in progress: RUN, and no offer stands. -/
structure State.Running (op : OpWord) (s : State) : Prop where
  phase : s.phase = .run
  offered : s.offered = false
  opl : s.opl = op

theorem State.Running.nextPos {op : OpWord} {s : State} (h : s.Running op) (out : Memory) (carry : Byte) :
    (s.nextPos out carry).Running op :=
  ⟨h.phase, h.offered, h.opl⟩

/-- In RUN the step is the micro-step (R126). -/
theorem State.Running.stepMicro_eq {op : OpWord} {s : State} (h : s.Running op) :
    stepMicro s = microStep s := by
  simp [stepMicro, h.phase, h.offered]

theorem State.Running.stepMicro_pack {op : OpWord} {s : State} (h : s.Running op)
    (hc : opClass op = .pack) (hb : s.blk < s.nblk) : stepMicro s = packMicro s := by
  simp [h.stepMicro_eq, microStep, h.opl, hc, hb]

theorem State.Running.stepMicro_unpack {op : OpWord} {s : State} (h : s.Running op)
    (hc : opClass op = .unpack) (hb : s.blk < s.nblk) : stepMicro s = unpackMicro s := by
  simp [h.stepMicro_eq, microStep, h.opl, hc, hb]

/-- The encoded bytes `e_j ... e_8` of a block, from `r_(j-1)` and the raw bytes `r_j ... r_7` (R93). -/
def packTail (m : Bit) : Nat → Byte → List Byte → List Byte
  | _, prev, [] => [encLast m prev]
  | j, prev, cur :: rest => encByte m j prev cur :: packTail m (j + 1) cur rest

/-- A packed block is its first byte and the tail from step 1. -/
theorem packBytes_eq_packTail (m : Bit) {r0 : Byte} {rest : List Byte} (h : rest.length = 7) :
    packBytes m (r0 :: rest) = r0 :: packTail m 1 r0 rest := by
  match rest, h with
  | [_, _, _, _, _, _, _], _ => rfl

/-- The raw bytes `r_j ... r_7` of a block, from `e_j` and the encoded bytes `e_(j+1) ... e_8` (R111). -/
def unpackTail : Nat → Byte → List Byte → List Byte
  | _, _, [] => []
  | j, prev, e :: rest => decByte j prev e :: unpackTail (j + 1) e rest

/-- An unpacked block is the tail from its first byte. -/
theorem unpackBytes_eq_unpackTail {e0 : Byte} {rest : List Byte} (h : rest.length = 8) :
    unpackBytes (e0 :: rest) = unpackTail 0 e0 rest := by
  match rest, h with
  | [_, _, _, _, _, _, _, _], _ => rfl

/-- The rest of a packed block, from position `j = 8 - l` with `r_(j-1)` read and its unplaced bits in the
carry: `l` bytes are read, and the tail of the block is stored. -/
theorem microRun_packTail {op : OpWord} (hc : opClass op = .pack) (n l : Nat) :
    ∀ {j : Nat} {prev : Byte} {s : State}, s.Running op → s.blk < s.nblk → 1 ≤ j → j + l = 8 →
      s.pos.toNat = j → s.carry = shl8 prev (9 - j) → s.inp.read (8 * s.blk + j - 1) = some prev →
      microRun (n + l + 1) s = s.readInList (8 * s.blk + j) l fun rest =>
        microRun n (s.afterBlocks 1 (9 * s.blk + j) (packTail (opMode op) j prev rest)) := by
  induction l with
  | zero =>
    intro j prev s hs hb _ hl hj hcarry hp
    obtain rfl : j = 8 := by omega
    obtain rfl := hs.opl
    simp only [packTail, encLast, ← hcarry, State.readInList_zero]
    exact microRun_succ_of_next n ((hs.stepMicro_pack hc hb).trans (packMicro_last s hj hp))
  | succ l ih =>
    intro j prev s hs hb h1 hl hj hcarry hp
    obtain rfl := hs.opl
    obtain rfl := hj
    rw [State.readInList_succ, microRun_succ_of_readIn _
      ((hs.stepMicro_pack hc hb).trans (packMicro_middle s h1 (by omega) hp))]
    cases hr : s.inp.read (8 * s.blk + s.pos.toNat) with
    | none => simp [hr]
    | some cur =>
      have hshl : 9 - (s.pos.toNat + 1) = 8 - s.pos.toNat := by omega
      simp only [State.readIn_some _ _ _ _ hr, packTail, encByte, ← hcarry]
      exact ih (s := s.nextPos _ _) (hs.nextPos _ _) hb (by omega) (by omega)
        (s.toNat_pos_nextPos _ _ (by omega)) (by rw [hshl]; rfl) hr

/-- The rest of an unpacked block, from position `j + 1 = 8 - l` with the unplaced bits of `e_j` in the
carry: `l + 1` bytes are read, and the tail of the block is stored. -/
theorem microRun_unpackTail {op : OpWord} (hc : opClass op = .unpack) (n l : Nat) :
    ∀ {j : Nat} {prev : Byte} {s : State}, s.Running op → s.blk < s.nblk → j + l = 7 →
      s.pos.toNat = j + 1 → s.carry = shl8 prev j →
      microRun (n + l + 1) s = s.readInList (9 * s.blk + (j + 1)) (l + 1) fun rest =>
        microRun n (s.afterBlocks 1 (8 * s.blk + j) (unpackTail j prev rest)) := by
  induction l with
  | zero =>
    intro j prev s hs hb hl hj hcarry
    obtain rfl : j = 7 := hl
    simp only [State.readInList_succ, State.readInList_zero, unpackTail, decByte, ← hcarry]
    exact microRun_succ_of_readIn n ((hs.stepMicro_unpack hc hb).trans (unpackMicro_last s hj))
  | succ l ih =>
    intro j prev s hs hb hl hj hcarry
    rw [State.readInList_succ, microRun_succ_of_readIn _
      ((hs.stepMicro_unpack hc hb).trans (unpackMicro_middle s hj (by omega)))]
    simp only [unpackTail, decByte, ← hcarry]
    congr 1
    funext e
    exact ih (s := s.nextPos _ _) (hs.nextPos _ _) hb (by omega)
      (by rw [State.toNat_pos_nextPos _ _ (by omega), hj]) rfl

end Sys2Proof.Machine
end

section
/-! SUPPORT. The micro-steps of a whole buffer, for both buffer commands at once, and the refinement of the
transaction level by the micro-step machine (00_scope.md R13). -/

namespace Sys2Proof.Machine

/-- The command latched with opcode `op` stands at the start of a block (R162). -/
structure State.AtBlockStart (op : OpWord) (s : State) : Prop extends s.Running op where
  pos : s.pos = 0
  carry : s.carry = 0

theorem State.atBlockStart_afterBlocks {op : OpWord} {s : State} (h : s.Running op) (k i : Nat)
    (bytes : List Byte) : (s.afterBlocks k i bytes).AtBlockStart op :=
  ⟨⟨h.phase, h.offered, h.opl⟩, rfl, rfl⟩

/-- No block at all leaves the core at the start of the block it stood at. -/
theorem State.AtBlockStart.afterBlocks_zero {op : OpWord} {s : State} (h : s.AtBlockStart op) (i : Nat) :
    s.afterBlocks 0 i [] = s := by
  simp [State.afterBlocks, ← h.pos, ← h.carry]

/-- Blocks after blocks, their bytes stored one after another. -/
theorem State.afterBlocks_afterBlocks (s : State) (k k' i : Nat) (xs ys : List Byte) :
    (s.afterBlocks k i xs).afterBlocks k' (i + xs.length) ys = s.afterBlocks (k + k') i (xs ++ ys) := by
  simp [State.afterBlocks, Memory.writeList_append, Nat.add_assoc]

/-- All the blocks of a command leave the core where `State.endBlocks` says (R127). -/
theorem State.afterBlocks_startBlock (s : State) (op : OpWord) (n : Nat) (bytes : List Byte) :
    ((s.latch op n).startBlock).afterBlocks n 0 bytes = ((s.latch op n).writeOut bytes).endBlocks := by
  simp [State.afterBlocks, State.startBlock, State.latch, State.writeOut, State.endBlocks]

/-- A buffer command with opcode `op` at micro-step level: it turns each block of `inBlk` bytes into `outBlk`
bytes by `code`, in nine micro-steps, and completes after the last block. -/
structure CodesBlocks (op : OpWord) (inBlk outBlk : Nat) (code : List Byte → List Byte) : Prop where
  code_nil : code [] = []
  code_append : ∀ {xs : List Byte} (ys : List Byte), xs.length = inBlk →
    code (xs ++ ys) = code xs ++ code ys
  length_code : ∀ {xs : List Byte}, xs.length = inBlk → (code xs).length = outBlk
  block : ∀ (n : Nat) {s : State}, s.AtBlockStart op → s.blk < s.nblk →
    microRun (n + 9) s = s.readInList (inBlk * s.blk) inBlk fun bytes =>
      microRun n (s.afterBlocks 1 (outBlk * s.blk) (code bytes))
  complete : ∀ {s : State}, s.Running op → s.blk = s.nblk →
    stepMicro s = .next (s.completeBuffer (outBlk * s.nblk))

/-- PACK.* codes each block of eight bytes into nine (R98, R100). -/
theorem codesBlocks_pack {op : OpWord} (hc : opClass op = .pack) :
    CodesBlocks op 8 9 (packBytes (opMode op)) where
  code_nil := rfl
  code_append ys h := packBytes_append _ _ ys (by omega)
  length_code h := by rw [length_packBytes _ _ (by omega), h]
  complete hs hb := by simp [hs.stepMicro_eq, microStep, hs.opl, hc, hb]
  block n s hs hb := by
    have h0 : s.pos.toNat = 0 := by simp [hs.pos]
    rw [State.readInList_succ, microRun_succ_of_readIn (n + 8)
      ((hs.stepMicro_pack hc hb).trans (packMicro_first s h0))]
    cases hr : s.inp.read (8 * s.blk) with
    | none => simp [hr]
    | some r0 =>
      rw [State.readIn_some _ _ _ _ hr, State.readIn_some _ _ _ _ hr]
      refine (microRun_packTail hc n 7 (s := s.nextPos _ _) (hs.nextPos _ _) hb le_rfl rfl
        (by rw [State.toNat_pos_nextPos _ _ (by omega), h0]) rfl hr).trans ?_
      refine State.readInList_congr s _ _ fun rest hrest => ?_
      rw [packBytes_eq_packTail _ hrest]
      rfl

/-- UNPACK codes each block of nine bytes into eight (R114, R117). -/
theorem codesBlocks_unpack {op : OpWord} (hc : opClass op = .unpack) :
    CodesBlocks op 9 8 unpackBytes where
  code_nil := rfl
  code_append ys h := unpackBytes_append _ ys (by omega)
  length_code h := by rw [length_unpackBytes _ (by omega), h]
  complete hs hb := by simp [hs.stepMicro_eq, microStep, hs.opl, hc, hb]
  block n s hs hb := by
    have h0 : s.pos.toNat = 0 := by simp [hs.pos]
    rw [State.readInList_succ, microRun_succ_of_readIn (n + 8)
      ((hs.stepMicro_unpack hc hb).trans (unpackMicro_first s h0))]
    congr 1
    funext e0
    refine (microRun_unpackTail hc n 7 (prev := e0) (s := s.nextPos _ _) (hs.nextPos _ _) hb rfl
      (by rw [State.toNat_pos_nextPos _ _ (by omega), h0]) (by simp [State.nextPos, shl8])).trans ?_
    refine State.readInList_congr s _ _ fun rest hrest => ?_
    rw [unpackBytes_eq_unpackTail hrest]
    rfl

section
variable {op : OpWord} {inBlk outBlk : Nat} {code : List Byte → List Byte}

/-- The micro-steps of the next `k` blocks (R127): their bytes are read and their codes stored. -/
theorem CodesBlocks.microRun_blocks (h : CodesBlocks op inBlk outBlk code) (n k : Nat) :
    ∀ {s : State}, s.AtBlockStart op → s.blk + k ≤ s.nblk →
      microRun (n + 9 * k) s = s.readInList (inBlk * s.blk) (inBlk * k) fun bytes =>
        microRun n (s.afterBlocks k (outBlk * s.blk) (code bytes)) := by
  induction k with
  | zero =>
    intro s hs _
    simp [h.code_nil, hs.afterBlocks_zero]
  | succ k ih =>
    intro s hs hb
    rw [show n + 9 * (k + 1) = n + 9 * k + 9 by omega, h.block _ hs (by omega),
      Nat.mul_succ, Nat.add_comm (inBlk * k), State.readInList_add]
    refine State.readInList_congr s _ _ fun xs hxs => ?_
    refine (ih (s := s.afterBlocks 1 (outBlk * s.blk) (code xs))
      (State.atBlockStart_afterBlocks hs.toRunning _ _ _) (by simp only [State.afterBlocks]; omega)).trans ?_
    simp only [h.code_append _ hxs, Nat.add_comm k 1, ← State.afterBlocks_afterBlocks, h.length_code hxs,
      ← Nat.mul_succ]
    rfl

/-- The micro-step machine from acceptance to completion of a buffer command. -/
theorem CodesBlocks.microRun_command (h : CodesBlocks op inBlk outBlk code) (n : Nat) (s : State) :
    microRun (9 * n + 1) ((s.accept.latch op n).startBlock) = s.readInList 0 (inBlk * n) fun bytes =>
      .next ((((s.accept.latch op n).writeOut (code bytes)).endBlocks).completeBuffer (outBlk * n)) := by
  have hs : ((s.accept.latch op n).startBlock).AtBlockStart op := ⟨⟨rfl, rfl, rfl⟩, rfl, rfl⟩
  rw [Nat.add_comm, h.microRun_blocks 1 n hs (by simp)]
  refine (State.readInList_congr _ _ _ fun bytes _ => ?_).trans rfl
  rw [microRun_one, State.startBlock_blk, State.latch_blk, Nat.mul_zero, State.afterBlocks_startBlock]
  exact h.complete ⟨rfl, rfl, rfl⟩ rfl

end

/-- From an offer the micro-step machine starts with the acceptance of the command on `OP` (R125). -/
theorem stepMicro_offered {s : State} (h : s.phase = .idle) (ho : s.offered = true) :
    stepMicro s = microAccept (decode s.op) s := by
  simp [stepMicro, h, ho]

/-- A buffer command of valid length: the micro-steps answer what its one transaction answers (R13). -/
theorem microRun_of_valid {s : State} (h : s.phase = .idle) (ho : s.offered = true)
    (hc : opClass s.op = .pack ∨ opClass s.op = .unpack) (hl : lengthOk (opClass s.op) s.len = true) :
    microRun (9 * blockCount (opClass s.op) s.len + 2) s = exec (decode s.op) s := by
  have hop : encode (decode s.op) = s.op := encode_decode s.op
  have hstart := (stepMicro_offered h ho).trans
    (microAccept_of_valid (i := decode s.op) h (by rwa [hop]) (by rwa [hop]))
  rw [microRun_succ_of_next _ hstart, exec_eq_of_class, hop]
  rcases hc with hc | hc <;> simp only [hc] at hl ⊢
  · have hmod : s.len % 8 = 0 := by simpa using hl
    have hlen : s.len = 8 * (s.len / 8) := by omega
    exact ((codesBlocks_pack hc).microRun_command _ s).trans (packCommand_eq_readInList _ _ s h hlen).symm
  · have hmod : s.len % 9 = 0 := by simpa using hl
    have hlen : s.len = 9 * (s.len / 9) := by omega
    exact ((codesBlocks_unpack hc).microRun_command _ s).trans (unpackCommand_eq_readInList _ s h hlen).symm

/-- Settles O48: the acceptance is the whole of a parity command or an error; a buffer command of valid
length goes on block by block. -/
theorem microStepsRefineTheTransaction : Obligations.MicroStepsRefineTheTransaction := by
  intro s h ho
  split
  · next hv => exact microRun_of_valid h ho hv.1 hv.2
  · next hv =>
    rw [microRun_one, stepMicro_offered h ho]
    exact microAccept_eq_exec h (by rwa [encode_decode])

end Sys2Proof.Machine
end

section
/-! SUPPORT. The bound on the output length (00_scope.md R8). -/

namespace Sys2Proof.Machine

/-- No command writes more than twice the bytes it is given (R98, R114). -/
theorem outLength_le_two_mul (c : CmdClass) (n : Nat) : outLength c n ≤ 2 * n := by
  cases c with
  | par => exact Nat.zero_le _
  | pack => simp only [outLength, packLen, Config.rawBlk]; split <;> omega
  | unpack => simp only [outLength, unpackLen, Config.encBlk]; split <;> omega
  | reserved => exact Nat.zero_le _

/-- Settles O41: twice the length needs one bit more. -/
theorem outputLengthFitsOneMoreBit : Obligations.OutputLengthFitsOneMoreBit := by
  intro c w n hn
  have hlen := outLength_le_two_mul c n
  rw [pow_succ]
  omega

end Sys2Proof.Machine
end

section
/-! SUPPORT. The invariant of 10_state.md in the two phases: what it comes to in IDLE and in RUN, and that every
step of the core keeps it, at transaction level and at micro-step level. -/

namespace Sys2Proof.Machine

/-! ## The output written so far -/

theorem State.outWritten_zero (s : State) : s.OutWritten 0 := fun _ hi => absurd hi (Nat.not_lt_zero _)

/-- The write of the next byte of `OUT` makes the output written so far one byte longer. -/
theorem State.OutWritten.write {s t : State} {n : Nat} {v : Byte} (h : s.OutWritten n)
    (ht : t.out = s.out.write n v) : t.OutWritten (n + 1) := by
  intro i hi
  rw [ht]
  rcases Nat.lt_succ_iff_lt_or_eq.mp hi with hlt | rfl
  · exact Memory.isSome_read_write _ _ _ _ (h i hlt)
  · simp

/-- A buffer command writes all of its output (R46). -/
theorem State.outWritten_of_writeList {s : State} {m : Memory} {bytes : List Byte}
    (h : s.out = m.writeList 0 bytes) : s.OutWritten bytes.length := by
  intro i hi
  rw [h, Memory.read_writeList, if_pos ⟨Nat.zero_le i, by omega⟩]
  simpa using hi

/-! ## The result ports -/

theorem State.resultsAgree_of_no_results {s : State} (hs : s.status = none) (hl : s.outLen = none)
    (hp : s.p = none) : s.ResultsAgree := by
  simp [State.ResultsAgree, hs, hl, hp]

/-- The ports agree after a buffer command and after an error (R129, R145). -/
theorem State.resultsAgree_of_no_parity {s : State} {st : Status} {l : Nat} (hs : s.status = some st)
    (hl : s.outLen = some l) (hp : s.p = none) (h0 : st ≠ .ok → l = 0) (hw : s.OutWritten l) :
    s.ResultsAgree := by
  refine ⟨by simp [hs, hl], by simp [hp], fun e he hne => ?_, fun l' _ hl' => ?_⟩
  · obtain rfl : st = e := by simpa [hs] using he
    rw [hl, h0 hne]
  · obtain rfl : l = l' := by simpa [hl] using hl'
    exact hw

/-- The ports agree after a parity command (R129). -/
theorem State.resultsAgree_of_parity {s : State} (hc : opClass s.opl = .par) (hs : s.status = some .ok)
    (hl : s.outLen = some 0) : s.ResultsAgree := by
  refine ⟨by simp [hs, hl], fun _ => ⟨hc, hs, hl⟩, fun _ _ _ => hl, fun l _ hl' => ?_⟩
  obtain rfl : 0 = l := by simpa [hl] using hl'
  exact s.outWritten_zero

/-! ## The invariant by phase -/

/-- In IDLE the invariant speaks of the buffers, the result ports and the registers at rest. -/
theorem State.inv_of_idle {s : State} (h : s.phase = .idle) (hwf : s.BuffersWf) (hres : s.ResultsAgree)
    (hcarry : s.carry = 0) (hpos : s.pos = 0) (hblk : s.blk = s.nblk) : s.Inv := by
  have hrun : s.phase ≠ .run := by simp [h]
  exact ⟨hwf, by simp [hpos], hres, fun _ => ⟨hcarry, hpos, hblk⟩, fun hr => absurd hr hrun,
    fun hr => absurd hr hrun, fun hr => absurd hr hrun⟩

/-- The registers at rest and the buffers, which any command starts from. -/
theorem State.Inv.idle {s : State} (h : s.Inv) (hp : s.phase = .idle) :
    s.BuffersWf ∧ s.carry = 0 ∧ s.pos = 0 ∧ s.blk = s.nblk := by
  obtain ⟨hwf, _, _, hrest, _⟩ := h
  exact ⟨hwf, hrest hp⟩

/-- A packer's carry is the part of the byte read before that is not placed yet (R100). -/
theorem State.carryHolds_pack {s : State} (hc : opClass s.opl = .pack) (h0 : s.pos.toNat = 0 → s.carry = 0)
    (h1 : 1 ≤ s.pos.toNat → ∃ v, s.inp.read (8 * s.blk + s.pos.toNat - 1) = some v ∧
      s.carry = shl8 v (9 - s.pos.toNat)) : s.CarryHolds :=
  fun _ => ⟨fun hz => h0 (by simp [hz]), fun hj _ => h1 hj, fun _ hu => by simp [hc] at hu⟩

/-- An unpacker's carry is the part of the byte read before that is not placed yet (R117). -/
theorem State.carryHolds_unpack {s : State} (hc : opClass s.opl = .unpack) (h0 : s.pos.toNat = 0 → s.carry = 0)
    (h1 : 1 ≤ s.pos.toNat → ∃ v, s.inp.read (9 * s.blk + s.pos.toNat - 1) = some v ∧
      s.carry = shl8 v (s.pos.toNat - 1)) : s.CarryHolds :=
  fun _ => ⟨fun hz => h0 (by simp [hz]), fun _ hu => by simp [hc] at hu, fun hi _ => h1 hi⟩

theorem State.outPrefixWritten_pack {s : State} (hc : opClass s.opl = .pack)
    (h : s.OutWritten (9 * s.blk + s.pos.toNat)) : s.OutPrefixWritten :=
  fun _ => ⟨fun _ => h, fun hu => by simp [hc] at hu⟩

theorem State.outPrefixWritten_unpack {s : State} (hc : opClass s.opl = .unpack)
    (h : s.OutWritten (8 * s.blk + (s.pos.toNat - 1))) : s.OutPrefixWritten :=
  fun _ => ⟨fun hu => by simp [hc] at hu, fun _ => h⟩

/-! ## Commands -/

/-- A parity command leaves the registers at rest (R81, R82, log 9). -/
theorem State.Inv.completePar {s : State} (h : s.Inv) (hp : s.phase = .idle) {op : OpWord}
    (hc : opClass op = .par) (bit : Bit) : ((s.accept.latch op 0).completePar bit).Inv := by
  obtain ⟨hwf, hcarry, hpos, _⟩ := h.idle hp
  exact State.inv_of_idle rfl hwf (State.resultsAgree_of_parity hc rfl rfl) hcarry hpos rfl

/-- An error leaves the registers at rest (R145). -/
theorem State.Inv.raise {s : State} (h : s.Inv) (hp : s.phase = .idle) (e : Status) :
    (s.accept.raise e).Inv := by
  obtain ⟨hwf, hcarry, hpos, hblk⟩ := h.idle hp
  exact State.inv_of_idle rfl hwf
    (State.resultsAgree_of_no_parity rfl rfl rfl (fun _ => rfl) (State.outWritten_zero _)) hcarry hpos hblk

/-- A buffer command that writes the bytes it reports leaves the registers at rest (R98, R114, R129). -/
theorem State.Inv.completeBuffer_writeOut {s : State} (h : s.Inv) (op : OpWord) (n : Nat)
    {bytes : List Byte} {l : Nat} (hl : bytes.length = l) :
    ((((s.accept.latch op n).writeOut bytes).endBlocks).completeBuffer l).Inv := by
  obtain ⟨⟨hin, hout⟩, _⟩ := h
  subst hl
  exact State.inv_of_idle rfl ⟨hin, Memory.wf_writeList _ _ _ hout⟩
    (State.resultsAgree_of_no_parity rfl rfl rfl (fun hne => absurd rfl hne)
      (State.outWritten_of_writeList rfl)) rfl rfl rfl

/-- What a pack command reads and what it writes fit the length law of R98. -/
theorem length_packBytes_of_readList {m : Memory} {n : Nat} {raw : List Byte} (bit : Bit) (hl : n % 8 = 0)
    (hr : m.readList 0 n = some raw) : (packBytes bit raw).length = n + n / 8 := by
  have hn : raw.length = n := ((Memory.readList_eq_some _ _ _ _).mp hr).1
  rw [length_packBytes _ _ (by omega)]
  omega

/-- What an unpack command reads and what it writes fit the length law of R114. -/
theorem length_unpackBytes_of_readList {m : Memory} {n : Nat} {enc : List Byte} (hl : n % 9 = 0)
    (hr : m.readList 0 n = some enc) : (unpackBytes enc).length = n - n / 9 := by
  have hn : enc.length = n := ((Memory.readList_eq_some _ _ _ _).mp hr).1
  rw [length_unpackBytes _ (by omega)]
  omega

/-- Every command keeps the invariant. -/
theorem exec_keeps_inv {i : Instr} {s t : State} (h : s.Inv) (hx : exec i s = .next t) : t.Inv := by
  obtain ⟨hp, ⟨hc, rfl⟩ | ⟨-, hl, raw, hr, rfl⟩ | ⟨-, hl, enc, hr, rfl⟩ | ⟨-, rfl⟩ | ⟨-, rfl⟩⟩ := exec_next hx
  · exact h.completePar hp hc _
  · exact h.completeBuffer_writeOut _ _ (length_packBytes_of_readList _ hl hr)
  · exact h.completeBuffer_writeOut _ _ (length_unpackBytes_of_readList hl hr)
  · exact h.raise hp _
  · exact h.raise hp _

/-! ## Micro-steps -/

/-- The start of a buffer command meets the invariant: no block is done and no byte written (R126, R162). -/
theorem State.Inv.startBlock {s : State} (h : s.Inv) {op : OpWord} (n : Nat)
    (hc : opClass op = .pack ∨ opClass op = .unpack) : ((s.accept.latch op n).startBlock).Inv := by
  obtain ⟨hwf, _⟩ := h
  refine ⟨hwf, Nat.zero_le _, State.resultsAgree_of_no_results rfl rfl rfl, fun hi => absurd hi (by simp),
    fun _ => ⟨hc, rfl, rfl, rfl, Nat.zero_le _, fun _ => rfl⟩, ?_, ?_⟩
  · exact fun _ => ⟨fun _ => rfl, fun hj => by simp at hj, fun hj => by simp at hj⟩
  · exact fun _ => ⟨fun _ => State.outWritten_zero _, fun _ => State.outWritten_zero _⟩

/-- The acceptance at micro-step level keeps the invariant, whether it starts a command or ends it. -/
theorem microAccept_keeps_inv {i : Instr} {s t : State} (h : s.Inv) (hp : s.phase = .idle)
    (hx : microAccept i s = .next t) : t.Inv := by
  by_cases hv : (opClass (encode i) = .pack ∨ opClass (encode i) = .unpack) ∧
      lengthOk (opClass (encode i)) s.len = true
  · obtain ⟨hc, hl⟩ := hv
    rw [microAccept_of_valid hp hc hl] at hx
    cases hx
    exact h.startBlock _ hc
  · rw [microAccept_eq_exec hp hv] at hx
    exact exec_keeps_inv h hx

/-- A micro-step inside a block keeps the invariant, if the carry and the byte it writes are those of R100 and
R117. -/
theorem State.Inv.nextPos {s : State} (h : s.Inv) (hp : s.phase = .run) (hb : s.blk < s.nblk)
    (h8 : s.pos.toNat < 8) {out : Memory} {carry : Byte} (hwf : out.wf = true)
    (hcarry : (s.nextPos out carry).CarryHolds) (hout : (s.nextPos out carry).OutPrefixWritten) :
    (s.nextPos out carry).Inv := by
  obtain ⟨⟨hin, _⟩, _, hres, _, hrun, _⟩ := h
  obtain ⟨hc, hst, hol, hpar, _⟩ := hrun hp
  have hpos := s.toNat_pos_nextPos out carry h8
  have hidle : (s.nextPos out carry).phase ≠ .idle := by simp [State.nextPos, hp]
  exact ⟨⟨hin, hwf⟩, by omega, State.resultsAgree_of_no_results hst hol hpar, fun hi => absurd hi hidle,
    fun _ => ⟨hc, hst, hol, hpar, hb.le, fun hend => absurd hend hb.ne⟩, hcarry, hout⟩

/-- The micro-step that ends a block keeps the invariant, if the output of the block is written (R127, R162). -/
theorem State.Inv.afterBlock {s : State} (h : s.Inv) (hp : s.phase = .run) (hb : s.blk < s.nblk) {i : Nat}
    {v : Byte} (hout : (s.afterBlocks 1 i [v]).OutPrefixWritten) : (s.afterBlocks 1 i [v]).Inv := by
  obtain ⟨⟨hin, hwf⟩, _, _, _, hrun, _⟩ := h
  obtain ⟨hc, hst, hol, hpar, _⟩ := hrun hp
  have hidle : (s.afterBlocks 1 i [v]).phase ≠ .idle := by simp [State.afterBlocks, hp]
  exact ⟨⟨hin, Memory.wf_write _ _ _ hwf⟩, Nat.zero_le _, State.resultsAgree_of_no_results hst hol hpar,
    fun hi => absurd hi hidle, fun _ => ⟨hc, hst, hol, hpar, hb, fun _ => rfl⟩,
    fun _ => ⟨fun _ => rfl, fun hj => by simp [State.afterBlocks] at hj,
      fun hj => by simp [State.afterBlocks] at hj⟩, hout⟩

/-- Completion keeps the invariant, if all of the reported output is written (R129). -/
theorem State.Inv.completeBuffer {s : State} (h : s.Inv) (hp : s.phase = .run) (hb : ¬ s.blk < s.nblk)
    {l : Nat} (hw : s.OutWritten l) : (s.completeBuffer l).Inv := by
  obtain ⟨hwf, _, _, _, hrun, hcarry, _⟩ := h
  obtain ⟨_, _, _, _, hle, hend⟩ := hrun hp
  have hblk : s.blk = s.nblk := by omega
  obtain ⟨hzero, _⟩ := hcarry hp
  exact State.inv_of_idle rfl hwf
    (State.resultsAgree_of_no_parity rfl rfl rfl (fun hne => absurd rfl hne) hw)
    (hzero (hend hblk)) (hend hblk) hblk

/-- A micro-step of the packer inside a block: the next byte is written, and the carry holds what is not placed
yet of the byte read (R100). -/
theorem State.Inv.nextPos_pack {s : State} (h : s.Inv) (hp : s.phase = .run) (hc : opClass s.opl = .pack)
    (hb : s.blk < s.nblk) (h8 : s.pos.toNat < 8) {v cur : Byte}
    (hr : s.inp.read (8 * s.blk + s.pos.toNat) = some cur) :
    (s.nextPos (s.out.write (9 * s.blk + s.pos.toNat) v) (shl8 cur (8 - s.pos.toNat))).Inv := by
  obtain ⟨⟨_, hwf⟩, _, _, _, _, _, hout⟩ := id h
  obtain ⟨hw, _⟩ := hout hp
  have hpos := s.toNat_pos_nextPos (s.out.write (9 * s.blk + s.pos.toNat) v)
    (shl8 cur (8 - s.pos.toNat)) h8
  refine h.nextPos hp hb h8 (Memory.wf_write _ _ _ hwf) (State.carryHolds_pack hc ?_ fun _ => ?_)
    (State.outPrefixWritten_pack hc ?_) <;> rw [hpos]
  · omega
  · exact ⟨cur, hr, by rw [show 9 - (s.pos.toNat + 1) = 8 - s.pos.toNat by omega]; rfl⟩
  · exact (hw hc).write rfl

/-- A micro-step of the unpacker inside a block: the bytes before the next raw byte are written, and the carry
holds what is not placed yet of the byte read (R117). -/
theorem State.Inv.nextPos_unpack {s : State} (h : s.Inv) (hp : s.phase = .run)
    (hc : opClass s.opl = .unpack) (hb : s.blk < s.nblk) (h8 : s.pos.toNat < 8) {out : Memory} {e : Byte}
    (hr : s.inp.read (9 * s.blk + s.pos.toNat) = some e) (hwf : out.wf = true)
    (hw : (s.nextPos out (shl8 e s.pos.toNat)).OutWritten (8 * s.blk + s.pos.toNat)) :
    (s.nextPos out (shl8 e s.pos.toNat)).Inv := by
  have hpos := s.toNat_pos_nextPos out (shl8 e s.pos.toNat) h8
  refine h.nextPos hp hb h8 hwf (State.carryHolds_unpack hc ?_ fun _ => ?_)
    (State.outPrefixWritten_unpack hc ?_) <;> rw [hpos]
  · omega
  · exact ⟨e, hr, rfl⟩
  · exact hw

/-- A micro-step of the packer keeps the invariant, by its position (R100). -/
theorem packMicro_keeps_inv {s t : State} (h : s.Inv) (hp : s.phase = .run) (hc : opClass s.opl = .pack)
    (hb : s.blk < s.nblk) (hx : packMicro s = .next t) : t.Inv := by
  rcases packMicro_next hx with ⟨h0, cur, hr, rfl⟩ | ⟨_, h7, _, cur, _, hr, rfl⟩ | ⟨h8, _, _, rfl⟩
  · have hnext := h.nextPos_pack hp hc hb (v := cur) (cur := cur) (by omega) (by rwa [h0])
    rwa [h0] at hnext
  · exact h.nextPos_pack hp hc hb (by omega) hr
  · obtain ⟨_, _, _, _, _, _, hout⟩ := id h
    obtain ⟨hw, _⟩ := hout hp
    rw [h8] at hw
    exact h.afterBlock hp hb (State.outPrefixWritten_pack hc ((hw hc).write rfl))

/-- A micro-step of the unpacker keeps the invariant, by its position (R117). -/
theorem unpackMicro_keeps_inv {s t : State} (h : s.Inv) (hp : s.phase = .run) (hc : opClass s.opl = .unpack)
    (hb : s.blk < s.nblk) (hx : unpackMicro s = .next t) : t.Inv := by
  obtain ⟨⟨_, hwf⟩, _, _, _, _, _, hout⟩ := id h
  obtain ⟨_, hw⟩ := hout hp
  rcases unpackMicro_next hx with ⟨h0, e, hr, rfl⟩ | ⟨h1, h7, e, hr, rfl⟩ | ⟨h8, e, _, rfl⟩
  · have hnext := h.nextPos_unpack hp hc hb (e := e) (by omega) (by rwa [h0]) hwf
      (by rw [h0] at hw ⊢; exact hw hc)
    rwa [h0, show shl8 e 0 = e by simp [shl8]] at hnext
  · have hidx : 8 * s.blk + s.pos.toNat - 1 + 1 = 8 * s.blk + s.pos.toNat := by omega
    refine h.nextPos_unpack hp hc hb (by omega) hr (Memory.wf_write _ _ _ hwf) ?_
    rw [← hidx]
    rw [← Nat.add_sub_assoc h1] at hw
    exact (hw hc).write rfl
  · rw [h8] at hw
    exact h.afterBlock hp hb (State.outPrefixWritten_unpack hc ((hw hc).write rfl))

/-- A step in RUN keeps the invariant (R100, R117, R129). -/
theorem microStep_keeps_inv {s t : State} (h : s.Inv) (hp : s.phase = .run) (hx : microStep s = .next t) :
    t.Inv := by
  obtain ⟨_, _, _, _, hrun, _, hout⟩ := id h
  obtain ⟨_, _, _, _, hle, hend⟩ := hrun hp
  obtain ⟨hpack, hunpack⟩ := hout hp
  rcases microStep_next hx with ⟨hc, ⟨hb, hx⟩ | ⟨hb, rfl⟩⟩ | ⟨hc, ⟨hb, hx⟩ | ⟨hb, rfl⟩⟩
  · exact packMicro_keeps_inv h hp hc hb hx
  · have hblk : s.blk = s.nblk := by omega
    have hw := hpack hc
    rw [hend hblk, hblk] at hw
    exact h.completeBuffer hp hb hw
  · exact unpackMicro_keeps_inv h hp hc hb hx
  · have hblk : s.blk = s.nblk := by omega
    have hw := hunpack hc
    rw [hend hblk, hblk] at hw
    exact h.completeBuffer hp hb hw

/-! ## Steps -/

/-- All that a step at micro-step level can answer as a next state (R125, R126). -/
theorem stepMicro_next {s t : State} (h : stepMicro s = .next t) :
    (s.phase = .idle ∧ s.offered = true ∧ microAccept (decode s.op) s = .next t) ∨
      (s.phase = .idle ∧ s.offered = false ∧ t = s) ∨
      (s.phase = .run ∧ s.offered = false ∧ microStep s = .next t) := by
  unfold stepMicro at h
  cases hp : s.phase <;> cases ho : s.offered <;> simp only [hp, ho] at h
  case idle.false => cases h; simp
  case idle.true => exact .inl ⟨rfl, rfl, h⟩
  case run.false => exact .inr (.inr ⟨rfl, rfl, h⟩)
  case run.true => cases h

/-- In IDLE the step executes the command that is offered (R125). -/
theorem step_offered {s : State} (h : s.phase = .idle) (ho : s.offered = true) :
    step s = exec (decode s.op) s := by
  simp [step, h, ho]

/-- The two levels differ in what they do with an offer in IDLE only (R13). -/
theorem step_eq_stepMicro {s : State} (h : ¬ (s.phase = .idle ∧ s.offered = true)) : step s = stepMicro s := by
  cases hp : s.phase with
  | run => simp [step, stepMicro, hp]
  | idle =>
    have ho : s.offered = false := by simpa [hp] using h
    simp [step, stepMicro, hp, ho]

/-- Settles O52: by the three things a step can do. -/
theorem everyMicroMachineStepKeepsInvariant : Obligations.EveryMicroMachineStepKeepsInvariant := by
  intro s t h hx
  rcases stepMicro_next hx with ⟨hp, _, hx⟩ | ⟨_, _, rfl⟩ | ⟨hp, _, hx⟩
  · exact microAccept_keeps_inv h hp hx
  · exact h
  · exact microStep_keeps_inv h hp hx

/-- Settles O51: an offered command keeps the invariant as one transaction, and every other step is one of the
micro-step machine. -/
theorem everyStepKeepsInvariant : Obligations.EveryStepKeepsInvariant := by
  intro s t h hx
  by_cases hs : s.phase = .idle ∧ s.offered = true
  · rw [step_offered hs.1 hs.2] at hx
    exact exec_keeps_inv h hx
  · rw [step_eq_stepMicro hs] at hx
    exact everyMicroMachineStepKeepsInvariant s t h hx

end Sys2Proof.Machine
end

section
/-! SUPPORT. The result of a command as a function of what the core holds of its offer (10_state.md R20). -/

namespace Sys2Proof.Machine

/-! ## The result that stands on the ports -/

theorem State.result_completePar (s : State) (bit : Bit) :
    (s.completePar bit).result = some { status := .ok, outLen := 0, out := [], p := some bit } := rfl

theorem State.result_raise (s : State) (e : Status) :
    (s.raise e).result = some (CommandResult.error e) := rfl

/-- After a buffer command that wrote all it reports, the result holds the bytes written (R129). -/
theorem State.result_completeBuffer_writeOut (s : State) {bytes : List Byte} {l : Nat}
    (hl : bytes.length = l) :
    (((s.writeOut bytes).endBlocks).completeBuffer l).result =
      some { status := .ok, outLen := l, out := bytes, p := none } := by
  subst hl
  simp [State.result, Memory.readList_writeList]

/-! ## The result of an offer that the core holds -/

/-- The core holds what the command of an offer uses: its opcode is that of the command, the two operand ports
are as given, and the bytes it reads are in `IN` (R20, R46). -/
structure State.Holds (i : Instr) (o : Offer) (s : State) : Prop where
  op : encode i = o.op
  len : s.len = o.len
  b : s.b = o.b
  bytes : s.inp.readList 0 (inLength (opClass o.op) o.len) =
    some (o.bytes.take (inLength (opClass o.op) o.len))

/-- R20: what an idle core holds of an offer decides the result, whatever else it holds. -/
theorem State.Holds.exec_result {i : Instr} {o : Offer} {s : State} (h : s.Holds i o)
    (hp : s.phase = .idle) :
    ∃ t, exec i s = .next t ∧ t.result = some (resultAlone o) ∧ t.phase = .idle ∧ t.offered = false := by
  obtain ⟨hop, hlen, hb, hbytes⟩ := h
  rw [exec_eq_of_class, hop]
  unfold resultAlone
  cases hc : opClass o.op with
  | par => exact ⟨_, parCommand_idle _ _ s hp, by rw [State.result_completePar, hb], rfl, rfl⟩
  | reserved => exact ⟨_, reservedCommand_idle s hp, State.result_raise _ _, rfl, rfl⟩
  | pack =>
    by_cases hl : o.len % 8 = 0
    · simp only [hc, inLength, hl, if_true] at hbytes
      have hlength := length_packBytes_of_readList (opMode o.op) hl hbytes
      rw [← hlen] at hbytes hl hlength
      refine ⟨_, packCommand_valid _ _ s _ hp hl hbytes, ?_, rfl, rfl⟩
      rw [State.result_completeBuffer_writeOut _ hlength]
      simp [← hlen, hl, packLen]
    · refine ⟨_, packCommand_invalid _ _ s hp (by rwa [hlen]), ?_, rfl, rfl⟩
      simp [State.result_raise, hl]
  | unpack =>
    by_cases hl : o.len % 9 = 0
    · simp only [hc, inLength, hl, if_true] at hbytes
      have hlength := length_unpackBytes_of_readList hl hbytes
      rw [← hlen] at hbytes hl hlength
      refine ⟨_, unpackCommand_valid _ s _ hp hl hbytes, ?_, rfl, rfl⟩
      rw [State.result_completeBuffer_writeOut _ hlength]
      simp [← hlen, hl, unpackLen]
    · refine ⟨_, unpackCommand_invalid _ s hp (by rwa [hlen]), ?_, rfl, rfl⟩
      simp [State.result_raise, hl]

/-- Every byte that a command which goes on reads has a value (R46, R167). -/
theorem exec_next_reads {i : Instr} {s t : State} (h : exec i s = .next t) :
    ∃ bytes, s.inp.readList 0 (inLength (opClass (encode i)) s.len) = some bytes := by
  obtain ⟨-, ⟨hc, -⟩ | ⟨hc, hl, raw, hr, -⟩ | ⟨hc, hl, enc, hr, -⟩ | ⟨⟨hc, hl⟩ | ⟨hc, hl⟩, -⟩ | ⟨hc, -⟩⟩ :=
    exec_next h
  · exact ⟨[], by rw [hc]; rfl⟩
  · exact ⟨raw, by simpa [hc, inLength, hl] using hr⟩
  · exact ⟨enc, by simpa [hc, inLength, hl] using hr⟩
  · exact ⟨[], by simp [hc, inLength, hl, Memory.readList]⟩
  · exact ⟨[], by simp [hc, inLength, hl, Memory.readList]⟩
  · exact ⟨[], by rw [hc]; rfl⟩

/-- A core on which a command goes on holds an offer of it. -/
theorem State.exists_holds {i : Instr} {s t : State} (h : exec i s = .next t) : ∃ o, s.Holds i o := by
  obtain ⟨bytes, hr⟩ := exec_next_reads h
  have hlen : bytes.length ≤ inLength (opClass (encode i)) s.len :=
    ((Memory.readList_eq_some _ _ _ _).mp hr).1.le
  exact ⟨⟨encode i, s.len, s.b, bytes, 0, 0, 0⟩, rfl, rfl, rfl, by rw [List.take_of_length_le hlen]; exact hr⟩

/-- A core that agrees on the operands and on the bytes read holds the same offer. -/
theorem State.Holds.congr {i : Instr} {o : Offer} {s t : State} (h : s.Holds i o) (hlen : t.len = s.len)
    (hb : t.b = s.b) (hinp : ∀ k, k < inLength (opClass (encode i)) s.len → t.inp.read k = s.inp.read k) :
    t.Holds i o := by
  refine ⟨h.op, hlen.trans h.len, hb.trans h.b, ?_⟩
  rw [← h.bytes, ← h.op, ← h.len]
  exact Memory.readList_congr _ _ _ _ fun k hk => by simpa using hinp k hk

/-- Settles O40: both cores hold the same offer. -/
theorem resultDependsOnInputsOnly : Obligations.ResultDependsOnInputsOnly := by
  intro i s t s' hx hp hlen hb hinp
  obtain ⟨o, ho⟩ := State.exists_holds hx
  obtain ⟨hidle, _⟩ := exec_next hx
  obtain ⟨u, hu, hres, _⟩ := ho.exec_result hidle
  obtain ⟨t', ht, hres', _⟩ := (ho.congr hlen hb hinp).exec_result hp
  obtain rfl : u = s' := by simpa [hu] using hx
  exact ⟨t', resultAlone o, ht, hres, hres'⟩

/-! ## The result of an offer that the host presents -/

/-- The first bytes of those written are read back. -/
theorem Memory.readList_writeList_take (m : Memory) (i : Nat) {n : Nat} {vs : List Byte}
    (h : n ≤ vs.length) : (m.writeList i vs).readList i n = some (vs.take n) := by
  refine (Memory.readList_eq_some _ _ _ _).mpr ⟨by simpa using h, fun k hk => ?_⟩
  have hk' : k < vs.length := by
    rw [List.length_take] at hk
    omega
  rw [Memory.read_writeList_inside _ _ _ _ hk', List.getElem_take]

/-- Where an offer that is taken leaves the core (R163). -/
def State.presented (o : Offer) (s : State) : State :=
  { s with op := o.op, len := o.len, b := o.b, inp := s.inp.writeList 0 o.bytes, offered := true }

/-- A well-formed offer to an idle core with none standing is taken (R163 to R170). -/
theorem present_of_wellFormed {o : Offer} {s : State} (ho : o.WellFormed) (hp : s.phase = .idle)
    (hs : s.offered = false) : s.present o = .next (s.presented o) := by
  obtain ⟨hlen, hroom, hdist⟩ := ho
  simp only [State.present, State.presented, hp, hs, if_neg (not_not_intro hlen), if_neg (not_not_intro hroom),
    if_neg (not_not_intro hdist), Bool.false_eq_true, if_false]

/-- A core that has taken a well-formed offer holds it. -/
theorem State.holds_presented {o : Offer} (ho : o.WellFormed) (s : State) :
    (s.presented o).Holds (decode o.op) o :=
  ⟨encode_decode o.op, rfl, rfl, Memory.readList_writeList_take _ _ (inLength_le_of_lenTrue ho.1)⟩

/-- Settles O58: a core that has taken the offer holds it. -/
theorem offerGivesItsOwnResult : Obligations.OfferGivesItsOwnResult := by
  intro o s ho hp hs
  obtain ⟨t, hx, ht⟩ := (s.holds_presented ho).exec_result hp
  refine ⟨t, ?_, ht⟩
  simp only [runOffer, present_of_wellFormed ho hp hs]
  exact (step_offered (s := s.presented o) hp rfl).trans hx

end Sys2Proof.Machine
end

section
/-! SUPPORT. What the host can read of the result ports and of `OUT` (10_state.md R26, 20_memory.md R46). -/

namespace Sys2Proof.Machine

theorem State.hostReadStatus_eq_ok (s : State) (v : Status) : s.hostReadStatus = .ok v ↔ s.status = some v := by
  unfold State.hostReadStatus
  cases s.status <;> simp

theorem State.hostReadOutLen_eq_ok (s : State) (v : Nat) : s.hostReadOutLen = .ok v ↔ s.outLen = some v := by
  unfold State.hostReadOutLen
  cases s.outLen <;> simp

theorem State.hostReadP_eq_ok (s : State) (v : Bit) : s.hostReadP = .ok v ↔ s.p = some v := by
  unfold State.hostReadP
  cases s.p <;> simp

/-- A byte of `OUT` is read below `OUTLEN` after STATUS OK, as it stands there (R46, R170, U9). -/
theorem State.hostReadOut_eq_ok (s : State) (i : Nat) (v : Byte) :
    s.hostReadOut i = .ok v ↔
      ∃ l, s.status = some .ok ∧ s.outLen = some l ∧ i < l ∧ s.out.read i = some v := by
  unfold State.hostReadOut
  split
  · next l hs hl =>
    simp only [hs, hl]
    by_cases hi : i < l
    · cases s.out.read i <;> simp [hi]
    · simp [hi]
  · next hno =>
    constructor
    · intro h
      cases h
    · rintro ⟨l, hs, hl, _⟩
      exact absurd hl (hno l hs)

/-- Settles O55: below `OUTLEN` the invariant gives every byte a value, and in RUN the ports none. -/
theorem hostReadsOnlyValues : Obligations.HostReadsOnlyValues := by
  intro s h
  obtain ⟨_, _, ⟨_, _, _, hwritten⟩, _, hrun, _⟩ := h
  refine ⟨s.hostReadStatus_eq_ok, s.hostReadOutLen_eq_ok, s.hostReadP_eq_ok, fun i => ?_,
    s.hostReadOut_eq_ok, fun hp => ?_⟩
  · simp only [State.hostReadOut_eq_ok]
    constructor
    · rintro ⟨_, l, hs, hl, hi, _⟩
      exact ⟨l, hs, hl, hi⟩
    · rintro ⟨l, hs, hl, hi⟩
      obtain ⟨v, hv⟩ := Option.isSome_iff_exists.mp (hwritten l hs hl i hi)
      exact ⟨v, l, hs, hl, hi, hv⟩
  · obtain ⟨_, hs, hl, hpar, _⟩ := hrun hp
    simp [State.hostReadStatus, State.hostReadOutLen, State.hostReadP, State.hostReadOut, hs, hl, hpar]

end Sys2Proof.Machine
end

section
/-! SUPPORT. The stream bits of a buffer and its numeral, one byte at a time (20_memory.md R42, R43). -/

namespace Sys2Proof.Machine

/-- The first byte of a buffer stands above the numeral of the rest (R43). -/
theorem bigEndian_cons (v : Byte) (vs : List Byte) :
    bigEndian (v :: vs) = 2 ^ (8 * vs.length) * v.toNat + bigEndian vs := by
  rw [bigEndian, pow_mul, Nat.mul_comm]
  norm_num

/-- A buffer of `n` bytes is a numeral of `8 * n` bits. -/
theorem bigEndian_lt (bytes : List Byte) : bigEndian bytes < 2 ^ (8 * bytes.length) := by
  induction bytes with
  | nil => exact Nat.one_pos
  | cons v vs ih =>
    calc bigEndian (v :: vs)
        = 2 ^ (8 * vs.length) * v.toNat + bigEndian vs := bigEndian_cons v vs
      _ < 2 ^ (8 * vs.length) * (v.toNat + 1) := Nat.add_lt_add_left ih _
      _ ≤ 2 ^ (8 * vs.length) * 2 ^ 8 := Nat.mul_le_mul_left _ v.isLt
      _ = 2 ^ (8 * (v :: vs).length) := (pow_add 2 _ 8).symm

/-- The bits of a numeral: those of its first byte stand above those of the rest. -/
theorem testBit_bigEndian_cons (v : Byte) (vs : List Byte) (i : Nat) :
    (bigEndian (v :: vs)).testBit i =
      if i < 8 * vs.length then (bigEndian vs).testBit i else v.getLsbD (i - 8 * vs.length) := by
  rw [bigEndian_cons, Nat.testBit_two_pow_mul_add _ (bigEndian_lt vs)]
  rfl

/-- The first eight stream bits are those of the first byte, most significant first (R42). -/
theorem streamBit_cons_of_lt (v : Byte) (vs : List Byte) {s : Nat} (h : s < 8) :
    streamBit (v :: vs) s = some (v.getLsbD (7 - s)) := by
  simp [streamBit, Nat.div_eq_of_lt h, Nat.mod_eq_of_lt h]

/-- After them come the stream bits of the rest (R42). -/
theorem streamBit_cons_add_eight (v : Byte) (vs : List Byte) (s : Nat) :
    streamBit (v :: vs) (s + 8) = streamBit vs s := by
  simp [streamBit]

/-- Settles O34: by induction on the buffer; a stream bit is one of the first byte or one of the rest. -/
theorem streamBitsAreTheNumeral : Obligations.StreamBitsAreTheNumeral := by
  intro bytes
  induction bytes with
  | nil => intro s hs; simp at hs
  | cons v vs ih =>
    intro s hs
    rw [List.length_cons] at hs ⊢
    rw [testBit_bigEndian_cons]
    by_cases h : s < 8
    · rw [streamBit_cons_of_lt v vs h, if_neg (by omega),
        show 8 * (vs.length + 1) - 1 - s - 8 * vs.length = 7 - s by omega]
    · obtain ⟨r, rfl⟩ := Nat.exists_eq_add_of_le' (Nat.le_of_not_lt h)
      rw [streamBit_cons_add_eight, ih r (by omega), if_pos (by omega),
        show 8 * (vs.length + 1) - 1 - (r + 8) = 8 * vs.length - 1 - r by omega]

end Sys2Proof.Machine
end

section
/-! SUPPORT. What a command leaves unchanged (20_memory.md R41, R46). -/

namespace Sys2Proof.Machine

/-- A buffer written from index 0 changes only below the bytes written (R46). -/
theorem State.outKeptFrom_of_writeList {s t : State} {bytes : List Byte} {l : Nat}
    (h : t.out = s.out.writeList 0 bytes) (hl : bytes.length = l) : s.OutKeptFrom l t := by
  intro a ha
  rw [h, Memory.read_writeList_above _ _ _ _ (by omega)]

/-- Settles O38: by the shapes of `exec_next`; only the two buffer commands write `OUT`, as many bytes as
their length law says. -/
theorem commandFrame : Obligations.CommandFrame := by
  intro i s t h
  obtain ⟨-, ⟨-, rfl⟩ | ⟨hc, hl, raw, hr, rfl⟩ | ⟨hc, hl, enc, hr, rfl⟩ | ⟨-, rfl⟩ | ⟨-, rfl⟩⟩ := exec_next h
  · exact ⟨⟨rfl, rfl, rfl, rfl⟩, rfl, fun _ _ => rfl⟩
  · refine ⟨⟨rfl, rfl, rfl, rfl⟩, rfl, State.outKeptFrom_of_writeList rfl ?_⟩
    rw [length_packBytes_of_readList _ hl hr]
    simp [hc, outLength, hl, packLen]
  · refine ⟨⟨rfl, rfl, rfl, rfl⟩, rfl, State.outKeptFrom_of_writeList rfl ?_⟩
    rw [length_unpackBytes_of_readList hl hr]
    simp [hc, outLength, hl, unpackLen]
  · exact ⟨⟨rfl, rfl, rfl, rfl⟩, rfl, fun _ _ => rfl⟩
  · exact ⟨⟨rfl, rfl, rfl, rfl⟩, rfl, fun _ _ => rfl⟩

end Sys2Proof.Machine
end

section
/-! SUPPORT. The values on the ports `OP`, `LEN` and `B` reach no micro-step (20_memory.md R51). -/

namespace Sys2Proof.Machine

@[simp] theorem mapNext_next (g : State → State) (s : State) : mapNext g (.next s) = .next (g s) := rfl

@[simp] theorem mapNext_fault (g : State → State) (f : Fault) : mapNext g (.fault f) = .fault f := rfl

@[simp] theorem mapNext_refused (g : State → State) (r : Refusal) :
    mapNext g (.refused r) = .refused r := rfl

/-- A change made after a read of `IN` is a change of what follows the read. -/
theorem mapNext_readIn (g : State → State) (s : State) (i : Nat)
    (k : Byte → Host.Outcome State Fault Refusal) :
    mapNext g (s.readIn i k) = s.readIn i fun v => mapNext g (k v) := by
  cases hr : s.inp.read i <;> simp [hr]

section
variable (s : State) (op : OpWord) (n : Nat) (v : Byte)

/-- `IN` reads the same whatever stands on the ports. -/
theorem State.readIn_drivePorts (i : Nat) (k : Byte → Host.Outcome State Fault Refusal) :
    (s.drivePorts op n v).readIn i k = s.readIn i k := rfl

/-- The advance of R127 looks at no port. -/
theorem State.advance_drivePorts : (s.drivePorts op n v).advance = s.advance.drivePorts op n v := by
  simp only [State.advance, apply_ite (State.drivePorts op n v)]
  rfl

theorem packMicro_drivePorts :
    packMicro (s.drivePorts op n v) = mapNext (State.drivePorts op n v) (packMicro s) := by
  unfold packMicro
  simp only [apply_ite (mapNext _), mapNext_readIn, mapNext_next, mapNext_fault, ← State.advance_drivePorts]
  rfl

theorem unpackMicro_drivePorts :
    unpackMicro (s.drivePorts op n v) = mapNext (State.drivePorts op n v) (unpackMicro s) := by
  unfold unpackMicro
  simp only [apply_ite (mapNext _), mapNext_readIn, mapNext_next, mapNext_fault, ← State.advance_drivePorts]
  rfl

/-- A micro-step, or the completion, looks at no port: the output length comes from the latched block count
(log 10). -/
theorem microStep_drivePorts :
    microStep (s.drivePorts op n v) = mapNext (State.drivePorts op n v) (microStep s) := by
  unfold microStep
  rw [packMicro_drivePorts, unpackMicro_drivePorts, State.drivePorts_opl]
  cases opClass s.opl with
  | par => rfl
  | reserved => rfl
  | pack => simp only [apply_ite (mapNext _)]; rfl
  | unpack => simp only [apply_ite (mapNext _)]; rfl

end

/-- Settles O46: in RUN a step is the refusal of an offer or a micro-step. -/
theorem portsAreSampledOnce : Obligations.PortsAreSampledOnce := by
  intro s op n v hp
  cases ho : s.offered with
  | true => simp [step, hp, ho]
  | false => simpa [step, hp, ho] using microStep_drivePorts s op n v

end Sys2Proof.Machine
end

section
/-! SUPPORT. A buffer written in chunks, in any order, and the blocks of a command as such chunks (20_memory.md
R52, 43_sequencing.md R128). -/

namespace Sys2Proof.Machine

/-- Write the chunks of `w` bytes of `bytes` that a list names, each at its own place, in the order of the
list. -/
def Memory.writeChunks (w : Nat) (bytes : List Byte) : List Nat → Memory → Memory
  | [], m => m
  | k :: ks, m => Memory.writeChunks w bytes ks (m.writeList (w * k) ((bytes.drop (w * k)).take w))

/-- A chunk written at its place gives the indices of the chunk the bytes that the whole has there. -/
theorem Memory.read_writeChunk {w : Nat} (hw : 0 < w) {bytes : List Byte} {k : Nat}
    (hk : w * (k + 1) ≤ bytes.length) (m : Memory) (a : Nat) :
    (m.writeList (w * k) ((bytes.drop (w * k)).take w)).read a =
      if a / w = k then bytes[a]? else m.read a := by
  have hlen : ((bytes.drop (w * k)).take w).length = w := by
    rw [Nat.mul_succ] at hk
    rw [List.length_take, List.length_drop]
    omega
  have hplace : a / w = k ↔ w * k ≤ a ∧ a < w * k + w := by
    rw [Nat.div_eq_iff hw, Nat.mul_comm k]
    omega
  rw [Memory.read_writeList, hlen]
  by_cases h : w * k ≤ a ∧ a < w * k + w
  · rw [if_pos h, if_pos (hplace.mpr h), List.getElem?_take_of_lt (by omega), List.getElem?_drop,
      Nat.add_sub_cancel' h.1]
  · rw [if_neg h, if_neg (mt hplace.mp h)]

/-- The chunks written, in whatever order: an index reads as the whole has it if its chunk is one of them, and
as before if not. -/
theorem Memory.read_writeChunks {w : Nat} (hw : 0 < w) {bytes : List Byte} {ks : List Nat}
    (hks : ∀ k ∈ ks, w * (k + 1) ≤ bytes.length) (m : Memory) (a : Nat) :
    (m.writeChunks w bytes ks).read a = if a / w ∈ ks then bytes[a]? else m.read a := by
  induction ks generalizing m with
  | nil => simp [Memory.writeChunks]
  | cons k ks ih =>
    rw [List.forall_mem_cons] at hks
    rw [Memory.writeChunks, ih hks.2, Memory.read_writeChunk hw hks.1]
    by_cases h : a / w ∈ ks <;> simp [h]

/-- All the chunks of a buffer, in any order, read as the buffer written at once. -/
theorem Memory.read_writeChunks_perm {w n : Nat} (hw : 0 < w) {bytes : List Byte}
    (hlen : bytes.length = w * n) {ks : List Nat} (hks : ks.Perm (List.range n)) (m : Memory) (a : Nat) :
    (m.writeChunks w bytes ks).read a = (m.writeList 0 bytes).read a := by
  have hfit : ∀ k ∈ ks, w * (k + 1) ≤ bytes.length := fun k hk =>
    hlen ▸ Nat.mul_le_mul_left w (List.mem_range.mp (hks.mem_iff.mp hk))
  have hmem : a / w ∈ ks ↔ a < w * n := by
    rw [hks.mem_iff, List.mem_range, Nat.div_lt_iff_lt_mul hw, Nat.mul_comm]
  rw [Memory.read_writeChunks hw hfit, Memory.read_writeList]
  simp [hmem, hlen]

/-- A part of a list read, read on its own. -/
theorem Memory.readList_part {m : Memory} {n : Nat} {bytes : List Byte} (h : m.readList 0 n = some bytes)
    {i l : Nat} (hil : i + l ≤ n) : m.readList i l = some ((bytes.drop i).take l) := by
  obtain ⟨hlen, hread⟩ := (Memory.readList_eq_some _ _ _ _).mp h
  have hpart : ((bytes.drop i).take l).length = l := by
    rw [List.length_take, List.length_drop]
    omega
  refine (Memory.readList_eq_some _ _ _ _).mpr ⟨hpart, fun k hk => ?_⟩
  rw [← Nat.zero_add (i + k), hread (i + k) (by omega), List.getElem_take, List.getElem_drop]

/-- The packed blocks, each computed on its own, are the chunks of nine bytes of the packed buffer (R128). -/
theorem packBlocksInOrder_eq_writeChunks (bit : Bit) {inp : Memory} {n : Nat} {raw : List Byte}
    (hr : inp.readList 0 (8 * n) = some raw) {ks : List Nat} (hks : ∀ k ∈ ks, k < n) (out : Memory) :
    packBlocksInOrder bit inp ks out = some (out.writeChunks 9 (packBytes bit raw) ks) := by
  have hlen : raw.length = 8 * n := ((Memory.readList_eq_some _ _ _ _).mp hr).1
  induction ks generalizing out with
  | nil => rfl
  | cons k ks ih =>
    rw [List.forall_mem_cons] at hks
    have hblock := Memory.readList_part hr (i := 8 * k) (l := 8) (by omega)
    simp only [packBlocksInOrder, packBlockInto, hblock, ih hks.2, Memory.writeChunks,
      packBytes_take_drop bit raw (by omega) k]

/-- The unpacked blocks, each computed on its own, are the chunks of eight bytes of the unpacked buffer (R128). -/
theorem unpackBlocksInOrder_eq_writeChunks {inp : Memory} {n : Nat} {enc : List Byte}
    (hr : inp.readList 0 (9 * n) = some enc) {ks : List Nat} (hks : ∀ k ∈ ks, k < n) (out : Memory) :
    unpackBlocksInOrder inp ks out = some (out.writeChunks 8 (unpackBytes enc) ks) := by
  have hlen : enc.length = 9 * n := ((Memory.readList_eq_some _ _ _ _).mp hr).1
  induction ks generalizing out with
  | nil => rfl
  | cons k ks ih =>
    rw [List.forall_mem_cons] at hks
    have hblock := Memory.readList_part hr (i := 9 * k) (l := 9) (by omega)
    simp only [unpackBlocksInOrder, unpackBlockInto, hblock, ih hks.2, Memory.writeChunks,
      unpackBytes_take_drop enc (by omega) k]

/-- A pack command that completes with STATUS OK leaves the packed input in `OUT` (R98, R129). -/
theorem packCommand_ok {m : Bit} {op : OpWord} {s t : State} (h : packCommand m op s = .next t)
    (hok : t.status = some .ok) :
    ∃ raw, s.inp.readList 0 (8 * (s.len / 8)) = some raw ∧ t.out = s.out.writeList 0 (packBytes m raw) := by
  obtain ⟨-, ⟨-, rfl⟩ | ⟨hl, raw, hr, rfl⟩⟩ := packCommand_next h
  · cases hok
  · exact ⟨raw, by rwa [Nat.mul_div_cancel' (Nat.dvd_of_mod_eq_zero hl)], rfl⟩

/-- An unpack command that completes with STATUS OK leaves the unpacked input in `OUT` (R114, R129). -/
theorem unpackCommand_ok {op : OpWord} {s t : State} (h : unpackCommand op s = .next t)
    (hok : t.status = some .ok) :
    ∃ enc, s.inp.readList 0 (9 * (s.len / 9)) = some enc ∧ t.out = s.out.writeList 0 (unpackBytes enc) := by
  obtain ⟨-, ⟨-, rfl⟩ | ⟨hl, enc, hr, rfl⟩⟩ := unpackCommand_next h
  · cases hok
  · exact ⟨enc, by rwa [Nat.mul_div_cancel' (Nat.dvd_of_mod_eq_zero hl)], rfl⟩

/-- The blocks of a pack command that completes with STATUS OK, in any order (R52, R150). -/
theorem packBlocksInOrder_of_packCommand {m : Bit} {op : OpWord} {s t : State} {ks : List Nat}
    (h : packCommand m op s = .next t) (hok : t.status = some .ok) (hks : ks.Perm (List.range (s.len / 8))) :
    ∃ out, packBlocksInOrder m s.inp ks s.out = some out ∧ ∀ a, out.read a = t.out.read a := by
  obtain ⟨raw, hr, hout⟩ := packCommand_ok h hok
  have hraw : raw.length = 8 * (s.len / 8) := ((Memory.readList_eq_some _ _ _ _).mp hr).1
  have hlen : (packBytes m raw).length = 9 * (s.len / 8) := by
    rw [length_packBytes m raw (by omega)]
    omega
  refine ⟨_, packBlocksInOrder_eq_writeChunks m hr (fun k hk => List.mem_range.mp (hks.mem_iff.mp hk)) _,
    fun a => ?_⟩
  rw [hout, Memory.read_writeChunks_perm (by decide) hlen hks]

/-- The blocks of an unpack command that completes with STATUS OK, in any order (R52, R150). -/
theorem unpackBlocksInOrder_of_unpackCommand {op : OpWord} {s t : State} {ks : List Nat}
    (h : unpackCommand op s = .next t) (hok : t.status = some .ok) (hks : ks.Perm (List.range (s.len / 9))) :
    ∃ out, unpackBlocksInOrder s.inp ks s.out = some out ∧ ∀ a, out.read a = t.out.read a := by
  obtain ⟨enc, hr, hout⟩ := unpackCommand_ok h hok
  have henc : enc.length = 9 * (s.len / 9) := ((Memory.readList_eq_some _ _ _ _).mp hr).1
  have hlen : (unpackBytes enc).length = 8 * (s.len / 9) := by
    rw [length_unpackBytes enc (by omega)]
    omega
  refine ⟨_, unpackBlocksInOrder_eq_writeChunks hr (fun k hk => List.mem_range.mp (hks.mem_iff.mp hk)) _,
    fun a => ?_⟩
  rw [hout, Memory.read_writeChunks_perm (by decide) hlen hks]

/-- Settles O49: the command writes its output at once, the blocks write the same bytes in chunks. -/
theorem blocksInAnyOrder : Obligations.BlocksInAnyOrder := by
  constructor
  · rintro i m s t ks (⟨rfl, rfl⟩ | ⟨rfl, rfl⟩) hx hok hks
    · exact packBlocksInOrder_of_packCommand hx hok hks
    · exact packBlocksInOrder_of_packCommand hx hok hks
  · rintro i s t ks (rfl | rfl) hx hok hks
    · exact unpackBlocksInOrder_of_unpackCommand hx hok hks
    · exact unpackBlocksInOrder_of_unpackCommand hx hok hks

end Sys2Proof.Machine
end

section
/-! SUPPORT. The bits of an encoded byte (41_pack.md R92, R93): which of its three components stands at each
bit, and which bits the masks of 30_encoding.md R68 select. -/

namespace Sys2Proof.Machine

theorem getLsbD_shl8 (v : Byte) (n : Nat) {k : Nat} (hk : k < 8) :
    (shl8 v n).getLsbD k = (decide (n ≤ k) && v.getLsbD (k - n)) := by
  simp only [shl8, BitVec.getLsbD_shiftLeft, hk, decide_true, Bool.true_and, ← decide_not, Nat.not_lt]

theorem getLsbD_shr (v : Byte) (n k : Nat) : (shr v n).getLsbD k = v.getLsbD (n + k) :=
  BitVec.getLsbD_ushiftRight v n k

theorem getLsbD_bitAt (p : Bit) (n : Nat) {k : Nat} (hk : k < 8) :
    (bitAt p n).getLsbD k = decide (k = n ∧ p = 1) := by
  have hp : p = 0 ∨ p = 1 := by revert p; decide
  have hpos : (!decide (k < n) && decide (k - n = 0)) = decide (k = n) := by
    rw [← decide_not, ← Bool.decide_and]; congr 1; simp only [eq_iff_iff]; omega
  obtain rfl | rfl := hp
  · simp [bitAt]
  · simpa [bitAt, hk] using hpos

/-- The mask of the carried bits selects the bits above the parity bit (R68). -/
theorem getLsbD_carryMask : ∀ j ≤ 8, ∀ k < 8, (carryMask j).getLsbD k = decide (8 < k + j) := by decide

/-- The mask of the parity bit selects bit `8 - j` (R68). -/
theorem getLsbD_parMask : ∀ j ≤ 8, ∀ k < 8, (parMask j).getLsbD k = decide (k + j = 8) := by decide

/-- The mask of the current byte selects the bits below the parity bit (R68). -/
theorem getLsbD_curMask : ∀ j ≤ 8, ∀ k < 8, (curMask j).getLsbD k = decide (k + j < 8) := by decide

section
variable (m : Bit) (prev cur : Byte) {j k : Nat}

theorem getLsbD_encByte (hk : k < 8) :
    (encByte m j prev cur).getLsbD k =
      (decide (9 - j ≤ k) && prev.getLsbD (k - (9 - j)) || decide (k = 8 - j ∧ par m prev = 1) ||
        cur.getLsbD (j + k)) := by
  simp only [encByte, BitVec.getLsbD_or, getLsbD_shl8 _ _ hk, getLsbD_bitAt _ _ hk, getLsbD_shr]

/-- Below the parity bit stand the bits of the current byte. -/
theorem getLsbD_encByte_of_lt (h : k + j < 8) : (encByte m j prev cur).getLsbD k = cur.getLsbD (j + k) := by
  simp [getLsbD_encByte m prev cur (show k < 8 by omega), show ¬ 9 - j ≤ k by omega,
    show k ≠ 8 - j by omega]

/-- At bit `8 - j` stands the parity bit of the previous byte. -/
theorem getLsbD_encByte_of_eq (hj : 1 ≤ j) (h : k + j = 8) :
    (encByte m j prev cur).getLsbD k = decide (par m prev = 1) := by
  rw [getLsbD_encByte m prev cur (by omega), BitVec.getLsbD_of_ge cur (j + k) (by omega)]
  rw [decide_eq_false (show ¬ 9 - j ≤ k by omega)]
  simp [show k = 8 - j by omega]

/-- Above the parity bit stand the carried bits of the previous byte. -/
theorem getLsbD_encByte_of_gt (hj : j ≤ 8) (hk : k < 8) (h : 8 < k + j) :
    (encByte m j prev cur).getLsbD k = prev.getLsbD (k - (9 - j)) := by
  rw [getLsbD_encByte m prev cur hk, BitVec.getLsbD_of_ge cur (j + k) (by omega)]
  simp [show 9 - j ≤ k by omega, show k ≠ 8 - j by omega]

/-- The first encoded byte of a block, the first raw byte (R91), is step 0 of the formula of R93. -/
theorem encByte_zero : encByte m 0 prev cur = cur :=
  BitVec.eq_of_getLsbD_eq fun k hk => by rw [getLsbD_encByte_of_lt m prev cur (by omega), Nat.zero_add]

/-- The last encoded byte of a block is step 8 of the formula of R93, which no bit of a current byte reaches. -/
theorem encByte_eight : encByte m 8 prev cur = encLast m prev := by
  have hcur : shr cur 8 = 0#8 := BitVec.ushiftRight_eq_zero (Nat.le_refl 8)
  rw [encByte, hcur, BitVec.or_zero, encLast]

/-- The carry mask selects the carried bits of an encoded byte (R68, R92). -/
theorem encByte_and_carryMask (hj : j ≤ 8) : encByte m j prev cur &&& carryMask j = shl8 prev (9 - j) := by
  refine BitVec.eq_of_getLsbD_eq fun k hk => ?_
  rw [BitVec.getLsbD_and, getLsbD_carryMask j hj k hk, getLsbD_shl8 _ _ hk]
  by_cases h : 8 < k + j
  · simp [getLsbD_encByte_of_gt m prev cur hj hk h, h, show 9 - j ≤ k by omega]
  · simp [h, show ¬ 9 - j ≤ k by omega]

/-- The parity mask selects the parity bit of an encoded byte (R68, R92). -/
theorem encByte_and_parMask (hj : j ≤ 8) :
    encByte m j prev cur &&& parMask j = bitAt (par m prev) (8 - j) := by
  refine BitVec.eq_of_getLsbD_eq fun k hk => ?_
  rw [BitVec.getLsbD_and, getLsbD_parMask j hj k hk, getLsbD_bitAt _ _ hk]
  by_cases h : k + j = 8
  · rw [getLsbD_encByte_of_eq m prev cur (by omega) h]
    simp [show k = 8 - j by omega, show 8 - j + j = 8 by omega]
  · simp [h, show k ≠ 8 - j by omega]

/-- The current mask selects the shifted current byte (R68, R92). -/
theorem encByte_and_curMask (hj : j ≤ 8) : encByte m j prev cur &&& curMask j = shr cur j := by
  refine BitVec.eq_of_getLsbD_eq fun k hk => ?_
  rw [BitVec.getLsbD_and, getLsbD_curMask j hj k hk, getLsbD_shr]
  by_cases h : k + j < 8
  · simp [getLsbD_encByte_of_lt m prev cur h, h]
  · simp [h, BitVec.getLsbD_of_ge cur (j + k) (by omega)]

end

/-- What the left shift of R111 pushes out of the byte is what the current mask clears. -/
theorem shl8_and_curMask (v : Byte) {j : Nat} (hj : j ≤ 8) : shl8 (v &&& curMask j) j = shl8 v j := by
  refine BitVec.eq_of_getLsbD_eq fun k hk => ?_
  rw [getLsbD_shl8 _ _ hk, getLsbD_shl8 _ _ hk, BitVec.getLsbD_and]
  by_cases h : j ≤ k
  · simp [getLsbD_curMask j hj (k - j) (by omega), show k - j + j < 8 by omega]
  · simp [h]

/-- What the right shift of R111 pushes out of the byte is what the carry mask of the next step clears. -/
theorem shr_and_carryMask (v : Byte) {j : Nat} (hj : j ≤ 7) :
    shr (v &&& carryMask (j + 1)) (8 - j) = shr v (8 - j) := by
  refine BitVec.eq_of_getLsbD_eq fun k _ => ?_
  rw [getLsbD_shr, getLsbD_shr, BitVec.getLsbD_and]
  by_cases h : 8 - j + k < 8
  · simp [getLsbD_carryMask (j + 1) (by omega) (8 - j + k) h, show 8 < 8 - j + k + (j + 1) by omega]
  · simp [BitVec.getLsbD_of_ge v (8 - j + k) (by omega)]

/-- Settles O33: step 8 is the general step without a current byte, so one lemma for each mask says both. -/
theorem stepMasksSelectTheComponents : Obligations.StepMasksSelectTheComponents := by
  refine ⟨fun m j prev cur _ hj => ?_, fun m prev => ?_, fun j e next hj => ?_⟩
  · have hj : j ≤ 8 := by omega
    exact ⟨encByte_and_carryMask m prev cur hj, encByte_and_parMask m prev cur hj,
      encByte_and_curMask m prev cur hj⟩
  · rw [← encByte_eight m prev 0]
    exact ⟨encByte_and_carryMask m prev 0 (Nat.le_refl 8), encByte_and_parMask m prev 0 (Nat.le_refl 8),
      encByte_and_curMask m prev 0 (Nat.le_refl 8)⟩
  · rw [decByte, shl8_and_curMask e (by omega), shr_and_carryMask next hj]

/-- Settles O32: the masks and step constants are tables of nine rows, so each row is looked at. -/
theorem stepMasksTileTheByte : Obligations.StepMasksTileTheByte := by
  refine ⟨by decide, fun j h1 h8 => ?_, by decide⟩
  interval_cases j <;> decide

end Sys2Proof.Machine
end

section
/-! SUPPORT. Packed blocks by byte, by stream bit and as numbers: the symbol view of 30_encoding.md R66. -/

namespace Sys2Proof.Machine

/-- Byte `j` of packed block `k` is step `j` of the formula of R93 on the raw bytes beside place `8 * k + j`,
for the first and the last byte of the block too. -/
theorem getElem?_packBytes (m : Bit) {raw : List Byte} (h : raw.length % 8 = 0) {k j : Nat}
    (hk : k < raw.length / 8) (hj : j ≤ 8) :
    (packBytes m raw)[9 * k + j]? =
      some (encByte m j (raw[8 * k + j - 1]?.getD 0) (raw[8 * k + j]?.getD 0)) := by
  revert k
  refine rawBlocks_induction (P := fun raw => ∀ {k}, k < raw.length / 8 → (packBytes m raw)[9 * k + j]? =
    some (encByte m j (raw[8 * k + j - 1]?.getD 0) (raw[8 * k + j]?.getD 0))) (by simp) ?_ raw h
  intro r0 r1 r2 r3 r4 r5 r6 r7 rest _ ih k hk
  rw [packBytes_block]
  cases k with
  | zero =>
    rw [List.getElem?_append_left (by rw [length_packBlock]; omega)]
    interval_cases j
    all_goals simp [packBlock, encByte_zero, encByte_eight]
  | succ k =>
    have hrest : k < rest.length / 8 := by simp only [List.length_cons] at hk; omega
    rw [List.getElem?_append_right (by rw [length_packBlock]; omega), length_packBlock,
      show 9 * (k + 1) + j - 9 = 9 * k + j by omega, ih hrest]
    obtain rfl | hj0 := Nat.eq_zero_or_pos j
    · rw [encByte_zero, encByte_zero, show 8 * (k + 1) + 0 = 8 * k + 8 by omega]
      simp
    · rw [show 8 * (k + 1) + j - 1 = 8 * k + j - 1 + 8 by omega,
        show 8 * (k + 1) + j = 8 * k + j + 8 by omega]
      simp

/-- A stream bit of a packed buffer is a bit of an encoded byte (R42, R93). -/
theorem streamBit_packBytes (m : Bit) {raw : List Byte} (h : raw.length % 8 = 0) {k j q : Nat}
    (hk : k < raw.length / 8) (hj : j ≤ 8) (hq : q < 8) :
    streamBit (packBytes m raw) (8 * (9 * k + j) + q) =
      some ((encByte m j (raw[8 * k + j - 1]?.getD 0) (raw[8 * k + j]?.getD 0)).getLsbD (7 - q)) := by
  have hbyte : (8 * (9 * k + j) + q) / 8 = 9 * k + j := by omega
  have hbit : (8 * (9 * k + j) + q) % 8 = q := by omega
  simp only [streamBit, hbyte, hbit, getElem?_packBytes m h hk hj]

/-- Settles O19: bit `t` of symbol `i` stands in encoded byte `i % 8` of its block before the byte ends, and in
the next encoded byte after. -/
theorem packedStreamIsSymbols : Obligations.PackedStreamIsSymbols := by
  intro m raw h i hi
  obtain ⟨k, l, hl, rfl⟩ : ∃ k l, l < 8 ∧ i = 8 * k + l := ⟨i / 8, i % 8, by omega, by omega⟩
  have hk : k < raw.length / 8 := by omega
  have hr : raw[8 * k + l]?.getD 0 = raw[8 * k + l] := by simp [hi]
  refine ⟨fun t ht => ?_, ?_⟩
  · by_cases hs : l + t < 8
    · rw [show 9 * (8 * k + l) + t = 8 * (9 * k + l) + (l + t) by omega,
        streamBit_packBytes m h hk (by omega) hs, getLsbD_encByte_of_lt _ _ _ (by omega), hr,
        show l + (7 - (l + t)) = 7 - t by omega]
    · rw [show 9 * (8 * k + l) + t = 8 * (9 * k + (l + 1)) + (l + t - 8) by omega,
        streamBit_packBytes m h hk (by omega) (by omega),
        getLsbD_encByte_of_gt _ _ _ (by omega) (by omega) (by omega), ← Nat.add_assoc, Nat.add_sub_cancel, hr,
        show 7 - (l + t - 8) - (9 - (l + 1)) = 7 - t by omega]
  · rw [show 9 * (8 * k + l) + 8 = 8 * (9 * k + (l + 1)) + l by omega,
      streamBit_packBytes m h hk (by omega) hl, getLsbD_encByte_of_eq _ _ _ (by omega) (by omega),
      ← Nat.add_assoc, Nat.add_sub_cancel, hr]

/-- The carried bits as a number (R92): the low `c` bits of the byte, above the place of the parity bit. -/
theorem toNat_shl8 (v : Byte) {n c : Nat} (h : n + c = 8) :
    (shl8 v n).toNat = 2 ^ n * (v.toNat % 2 ^ c) := by
  rw [shl8, BitVec.toNat_shiftLeft, Nat.shiftLeft_eq, Nat.mul_comm,
    show 2 ^ 8 = 2 ^ n * 2 ^ c by rw [← pow_add, h], Nat.mul_mod_mul_left]

theorem toNat_bitAt (p : Bit) {n : Nat} (hn : n < 8) : (bitAt p n).toNat = 2 ^ n * p.toNat := by
  have h : ∀ n < 8, ∀ p : Bit, (bitAt p n).toNat = 2 ^ n * p.toNat := by decide
  exact h n hn p

theorem toNat_shr (v : Byte) (n : Nat) : (shr v n).toNat = v.toNat / 2 ^ n := by
  rw [shr, BitVec.toNat_ushiftRight, Nat.shiftRight_eq_div_pow]

/-- The components of an encoded byte share no bit, so as a number it is their sum (R92, R93). -/
theorem toNat_encByte (m : Bit) {j : Nat} (prev cur : Byte) (h1 : 1 ≤ j) (h8 : j ≤ 8) :
    (encByte m j prev cur).toNat =
      2 ^ (9 - j) * (prev.toNat % 2 ^ (j - 1)) + (2 ^ (8 - j) * (par m prev).toNat + cur.toNat / 2 ^ j) := by
  have hcur : cur.toNat / 2 ^ j < 2 ^ (8 - j) := by
    rw [Nat.div_lt_iff_lt_mul (Nat.two_pow_pos j), ← pow_add, Nat.sub_add_cancel h8]
    exact cur.isLt
  have hlow : 2 ^ (8 - j) * (par m prev).toNat + cur.toNat / 2 ^ j < 2 ^ (9 - j) :=
    calc 2 ^ (8 - j) * (par m prev).toNat + cur.toNat / 2 ^ j
        < 2 ^ (8 - j) * ((par m prev).toNat + 1) := Nat.add_lt_add_left hcur _
      _ ≤ 2 ^ (8 - j) * 2 := Nat.mul_le_mul_left _ (par m prev).isLt
      _ = 2 ^ (9 - j) := by rw [← pow_succ, ← Nat.sub_add_comm h8]
  rw [encByte, BitVec.toNat_or, BitVec.toNat_or, toNat_shl8 prev (show 9 - j + (j - 1) = 8 by omega),
    toNat_bitAt _ (by omega), toNat_shr, Nat.or_assoc, ← Nat.two_pow_add_eq_or_of_lt hcur,
    ← Nat.two_pow_add_eq_or_of_lt hlow]

/-- Settles O20: with each encoded byte as the sum of its components, the two parts of every raw byte, its
quotient and its remainder by a power of 2, meet in the place of its symbol. -/
theorem packedBlockAsNumber : Obligations.PackedBlockAsNumber := by
  intro m r0 r1 r2 r3 r4 r5 r6 r7
  rw [packBlock, ← encByte_eight m r7 0]
  simp (disch := decide) only [bigEndian, List.length, toNat_encByte, show (0 : Byte).toNat = 0 from rfl]
  omega

end Sys2Proof.Machine
end

section
/-! SUPPORT. The opcode map, the codes of `STATUS`, the reserved opcodes, UNPACK as `OP = 101` and the assembly
lines (30_encoding.md R60 to R65, R70). -/

namespace Sys2Proof.Machine

/-- Settles O1: the decoder runs on the eight words. -/
theorem decodeMatchesOpcodeMap : Obligations.DecodeMatchesOpcodeMap :=
  ⟨rfl, rfl, rfl, rfl, rfl, rfl, rfl, rfl⟩

/-- The command that the opcode of a command spells is that command (R61). -/
theorem decode_encode (i : Instr) : decode (encode i) = i := by
  cases i <;> rfl

/-- Settles O2, by the two round trips. -/
theorem decodeEncodeAgree : Obligations.DecodeEncodeAgree :=
  ⟨decode_encode, encode_decode⟩

/-- A number is rejected exactly when it does not fit the three bits of `OP` (log 19). -/
theorem decodeWord_eq_error (w : Nat) : decodeWord w = .error .bitsAboveOp ↔ 8 ≤ w := by
  by_cases h : w < 8
  · simp [decodeWord, opOfWord, h]
  · simp [decodeWord, opOfWord, h, Nat.le_of_not_lt h]

/-- Settles O3: the fields by the eight values of the port, the range for every number. -/
theorem opcodeFieldsAndRange : Obligations.OpcodeFieldsAndRange :=
  ⟨by decide, decodeWord_eq_error⟩

/-- Settles O4, by the three values of the port. -/
theorem statusCodes : Obligations.StatusCodes := by
  refine ⟨rfl, rfl, rfl, fun st => ?_, rfl⟩
  cases st with
  | ok => exact ⟨by decide, rfl⟩
  | invalidLength => exact ⟨by decide, rfl⟩
  | illegalCommand => exact ⟨by decide, rfl⟩

/-- Acceptance followed by the error entry changes what R145 lists and nothing else. -/
theorem State.errorEntry_accept_raise (s : State) (e : Status) : s.ErrorEntry e (s.accept.raise e) :=
  ⟨rfl, rfl, rfl, rfl, rfl, rfl, rfl, rfl, rfl, rfl, rfl, rfl, rfl, rfl, rfl⟩

/-- Settles O14: both reserved opcodes are the one command that takes the error entry. -/
theorem reservedRaiseIllegalCommand : Obligations.ReservedRaiseIllegalCommand := by
  rintro i s (rfl | rfl) hp
  · exact ⟨_, reservedCommand_idle s hp, s.errorEntry_accept_raise _⟩
  · exact ⟨_, reservedCommand_idle s hp, s.errorEntry_accept_raise _⟩

/-- An unpack command given another opcode to latch: the same refusal, or the same next state but for the
latched opcode. -/
theorem unpackCommand_congr_op (op op' : OpWord) {s : State} (h : s.phase = .idle) :
    (∃ r, unpackCommand op s = .refused r ∧ unpackCommand op' s = .refused r) ∨
      ∃ t u, unpackCommand op s = .next t ∧ unpackCommand op' s = .next u ∧ { u with opl := t.opl } = t := by
  by_cases hl : s.len % 9 = 0
  · cases hr : s.inp.readList 0 s.len with
    | none => exact .inl ⟨_, unpackCommand_missing op s h hl hr, unpackCommand_missing op' s h hl hr⟩
    | some enc =>
      exact .inr ⟨_, _, unpackCommand_valid op s enc h hl hr, unpackCommand_valid op' s enc h hl hr, rfl⟩
  · exact .inr ⟨_, _, unpackCommand_invalid op s h hl, unpackCommand_invalid op' s h hl, rfl⟩

/-- Settles O25: both commands are the unpack command, each with its own opcode to latch. -/
theorem unpackAliasExecutesAsUnpack : Obligations.UnpackAliasExecutesAsUnpack := by
  intro s hp
  rw [show exec .unpack s = unpackCommand (encode .unpack) s from rfl,
    show exec .unpackAlias s = unpackCommand (encode .unpackAlias) s from rfl]
  obtain ⟨r, h, h'⟩ | ⟨t, u, h, h', hopl⟩ := unpackCommand_congr_op (encode .unpack) (encode .unpackAlias) hp
  · simp [h, h']
  · simp [h, h', hopl]

/-- The offer of a line keeps the duties of the host (R165, R167, R170): `LEN` counts the bytes named, the room
is the output length, and `OUT` begins where `IN` ends (log 17). -/
theorem AsmLine.offer_wellFormed (l : AsmLine) : l.offer.WellFormed := by
  have hlen : l.offer.LenTrue := fun _ => rfl
  have hin : l.offer.inBase + inLength (opClass l.offer.op) l.offer.len ≤ l.offer.outBase := by
    simpa [AsmLine.offer] using inLength_le_of_lenTrue hlen
  exact ⟨hlen, Nat.le_refl _, .inl hin⟩

/-- Settles O60: the rows are read off the definition of a line's offer, and every offer keeps the duties. -/
theorem assemblyLinesAreCommands : Obligations.AssemblyLinesAreCommands :=
  ⟨fun _ => ⟨rfl, rfl, rfl, rfl, rfl, rfl⟩, fun _ => ⟨rfl, rfl, rfl, rfl⟩,
    fun l => ⟨rfl, l.offer_wellFormed⟩⟩

end Sys2Proof.Machine
end

section
/-! SUPPORT. The parity predicate (40_parity.md R80, R83, R84) as a sum of bits, the sum of single bits being their
exclusive OR, and the two commands that return it (R81, R82). -/

namespace Sys2Proof.Machine

theorem toNat_par (m : Bit) (v : Byte) : (par m v).toNat = (popcount v + m.toNat) % 2 :=
  BitVec.toNat_ofNat _ _

/-- The contract of R80 for both modes: the parity bit is the one bit that brings the total count to the mode. -/
theorem popcount_add_mod_two_iff (m : Bit) (v : Byte) (bit : Bit) :
    (popcount v + bit.toNat) % 2 = m.toNat ↔ bit = par m v := by
  have hm := m.isLt
  have hbit := bit.isLt
  rw [← BitVec.toNat_inj, toNat_par]
  omega

theorem par_eq_ofNat_popcount_xor (m : Bit) (v : Byte) : par m v = BitVec.ofNat 1 (popcount v) ^^^ m := by
  rw [par, BitVec.ofNat_add, BitVec.ofNat_toNat, BitVec.setWidth_eq, BitVec.add_eq_xor]

theorem oddParity_eq_evenParity_xor (v : Byte) : oddParity v = evenParity v ^^^ 1 := by
  simp [oddParity, evenParity, par_eq_ofNat_popcount_xor]

/-- Settles O7: the contract of R80 in the modes 0 and 1. -/
theorem parityBitMakesCountEvenOrOdd : Obligations.ParityBitMakesCountEvenOrOdd := fun v bit =>
  ⟨popcount_add_mod_two_iff 0 v bit, popcount_add_mod_two_iff 1 v bit, oddParity_eq_evenParity_xor v⟩

/-- One bit of a byte, as a count of 0 or 1 and as a field of width 1. -/
theorem ofNat_toNat_getLsbD (v : Byte) (k : Nat) :
    BitVec.ofNat 1 (v.getLsbD k).toNat = v.extractLsb' k 1 := by
  refine BitVec.eq_of_toNat_eq ?_
  rw [BitVec.toNat_ofNat, BitVec.extractLsb'_toNat, ← BitVec.testBit_toNat, Nat.toNat_testBit,
    Nat.shiftRight_eq_div_pow, Nat.mod_mod]

/-- Settles O8: modulo 2 the count of set bits is a sum of single bits, and that sum is their exclusive OR. -/
theorem parityIsXorOfBits : Obligations.ParityIsXorOfBits := by
  intro m v
  rw [par_eq_ofNat_popcount_xor, popcount]
  simp only [BitVec.ofNat_add, ofNat_toNat_getLsbD, BitVec.add_eq_xor]
  ac_rfl

/-- The predicate is linear in the mode bit and the byte together (R84). -/
theorem par_xor (m n : Bit) (a c : Byte) : par (m ^^^ n) (a ^^^ c) = par m a ^^^ par n c := by
  simp only [parityIsXorOfBits _ _, BitVec.extractLsb'_xor]
  ac_rfl

theorem evenParity_bitAt_one : ∀ k < 8, evenParity (bitAt 1 k) = 1 := by decide

/-- Settles O9: a flipped bit is the sum with a byte of one set bit, whose even parity is 1. -/
theorem parityIsLinear : Obligations.ParityIsLinear := by
  refine ⟨fun a c => par_xor 0 0 a c, fun m v k hk => ?_⟩
  calc par m (v ^^^ bitAt 1 k) = par (m ^^^ 0) (v ^^^ bitAt 1 k) := by simp
    _ = par m v ^^^ evenParity (bitAt 1 k) := par_xor m 0 v _
    _ = par m v ^^^ 1 := by rw [evenParity_bitAt_one k hk]

/-- The result of both parity commands: the count of set bits of `B` and the mode, modulo 2, and nothing else of
the host is touched (R81, R82). -/
theorem parCommand_result (m : Bit) (op : OpWord) {s : State} (h : s.phase = .idle) :
    ∃ t, parCommand m op s = .next t ∧ (∃ bit, t.p = some bit ∧ bit.toNat = (popcount s.b + m.toNat) % 2) ∧
      t.outLen = some 0 ∧ t.status = some .ok ∧ s.HostSideKept t ∧ t.out = s.out :=
  ⟨_, parCommand_idle m op s h, ⟨_, rfl, toNat_par m s.b⟩, rfl, rfl, ⟨rfl, rfl, rfl, rfl⟩, rfl⟩

/-- Settles O10: `PAR.EVEN` is the parity command of mode 0. -/
theorem parEvenResult : Obligations.ParEvenResult :=
  ⟨decode_encode .parEven, fun _ h => parCommand_result 0 (encode .parEven) h⟩

/-- Settles O11: `PAR.ODD` is the parity command of mode 1. -/
theorem parOddResult : Obligations.ParOddResult :=
  ⟨decode_encode .parOdd, fun _ h => parCommand_result 1 (encode .parOdd) h⟩

end Sys2Proof.Machine
end

section
/-! SUPPORT. The packer as a function on buffers (41_pack.md R95, R99): what the mode changes of a block, what equal
packed buffers say of the raw ones, and the laws of length and concatenation. -/

namespace Sys2Proof.Machine

/-- The other mode flips the parity bit of an encoded byte and nothing else (R84, R95). -/
theorem encByte_one_eq_xor_parMask (prev cur : Byte) {j : Nat} (hj : j ≤ 8) :
    encByte 1 j prev cur = encByte 0 j prev cur ^^^ parMask j := by
  refine BitVec.eq_of_getLsbD_eq fun k hk => ?_
  rw [BitVec.getLsbD_xor, getLsbD_parMask j hj k hk]
  rcases Nat.lt_trichotomy (k + j) 8 with h | h | h
  · simp [getLsbD_encByte_of_lt _ _ _ h, h.ne]
  · have hpar : par 1 prev = par 0 prev ^^^ 1 := oddParity_eq_evenParity_xor prev
    have hflip : ∀ p : Bit, decide (p ^^^ 1 = 1) = (decide (p = 1) ^^ true) := by decide
    rw [getLsbD_encByte_of_eq _ _ _ (by omega) h, getLsbD_encByte_of_eq _ _ _ (by omega) h, hpar, hflip,
      decide_eq_true h]
  · simp [getLsbD_encByte_of_gt _ _ _ hj hk h, h.ne']

/-- Settles O21: every byte of a block is a step of R93, and the constants are the parity masks of the steps. -/
theorem modesDifferInParityPositionsOnly : Obligations.ModesDifferInParityPositionsOnly := by
  intro r0 r1 r2 r3 r4 r5 r6 r7
  simp (disch := decide) only [packBlock, ← encByte_eight _ r7 0, encByte_one_eq_xor_parMask]
  simp [parMask]

/-- Settles O22: the packed buffer gives the number of raw bytes by its length, and their bits by its symbols. -/
theorem packIsInjective : Obligations.PackIsInjective := by
  intro m x y hx hy hxy
  have hlen : x.length = y.length := by
    have h := congrArg List.length hxy
    rw [length_packBytes m x hx, length_packBytes m y hy] at h
    omega
  refine List.ext_getElem hlen fun i hix hiy => BitVec.eq_of_getLsbD_eq fun k hk => ?_
  obtain ⟨hbitx, -⟩ := packedStreamIsSymbols m x hx i hix
  obtain ⟨hbity, -⟩ := packedStreamIsSymbols m y hy i hiy
  have hbit := (hbitx (7 - k) (by omega)).symm.trans (hxy ▸ hbity (7 - k) (by omega))
  simpa [show 7 - (7 - k) = k by omega] using hbit

/-- Settles O23: nine bytes for every eight, and block after block. -/
theorem packLengthAndConcatenation : Obligations.PackLengthAndConcatenation := by
  intro m x y hx _
  refine ⟨?_, packBytes_nil m, packBytes_append m x y hx⟩
  rw [length_packBytes m x hx]
  omega

end Sys2Proof.Machine
end

section
/-! SUPPORT. The two pack commands, by every byte of their output (41_pack.md R93, R96, R97, R98). -/

namespace Sys2Proof.Machine

/-- A buffer whose byte at index `a` is `f a`, read as a list. -/
theorem Memory.readList_eq_map_range {m : Memory} {n : Nat} {f : Nat → Byte}
    (h : ∀ a, a < n → m.read a = some (f a)) : m.readList 0 n = some ((List.range n).map f) :=
  (Memory.readList_eq_some _ _ _ _).mpr ⟨by simp, fun k hk => by simpa using h k (by simpa using hk)⟩

/-- Byte `j` of block `k` of a packed buffer that stands in `OUT` is step `j` of the formula of R93. -/
theorem Memory.read_writeList_packBytes (out : Memory) (m : Bit) {raw : List Byte} (h : raw.length % 8 = 0)
    {k j : Nat} (hk : k < raw.length / 8) (hj : j ≤ 8) :
    (out.writeList 0 (packBytes m raw)).read (9 * k + j) =
      some (encByte m j (raw[8 * k + j - 1]?.getD 0) (raw[8 * k + j]?.getD 0)) := by
  have hin : 9 * k + j < (packBytes m raw).length := by rw [length_packBytes m raw h]; omega
  rw [Memory.read_writeList, if_pos ⟨Nat.zero_le _, by omega⟩, Nat.sub_zero, getElem?_packBytes m h hk hj]

/-- What a pack command does, for the command whose meaning is the packer with mode `m`: the first and the last
byte of a block are the steps 0 and 8 of the formula of R93. -/
theorem packOutput_of_exec {i : Instr} {m : Bit} {op : OpWord} (hi : ∀ s, exec i s = packCommand m op s) :
    PackOutput i m := by
  refine ⟨fun s f hp hl hf => ?_, fun s hp hl =>
    ⟨_, (hi s).trans (packCommand_invalid m op s hp hl), s.errorEntry_accept_raise _⟩⟩
  have hr := Memory.readList_eq_map_range hf
  have hlen : ((List.range s.len).map f).length = s.len := by simp
  have hget : ∀ a, a < s.len → ((List.range s.len).map f)[a]?.getD 0 = f a := fun a ha => by simp [ha]
  refine ⟨_, (hi s).trans (packCommand_valid m op s _ hp hl hr), ⟨rfl, rfl, rfl, rfl⟩, ⟨rfl, rfl, rfl, rfl⟩,
    State.outKeptFrom_of_writeList rfl (length_packBytes_of_readList m hl hr), fun k hk => ?_⟩
  have hbyte := fun j (hj : j ≤ 8) =>
    Memory.read_writeList_packBytes s.out m (by rwa [hlen]) (k := k) (by rwa [hlen]) hj
  refine ⟨(hbyte 0 (by omega)).trans ?_, fun j h1 h7 => (hbyte j (by omega)).trans ?_,
    (hbyte 8 (by omega)).trans ?_⟩
  · rw [encByte_zero, hget _ (by omega), Nat.add_zero]
  · rw [hget _ (by omega), hget _ (by omega), encByte]
  · rw [encByte_eight, hget _ (by omega), encLast, show 8 * k + 8 - 1 = 8 * k + 7 by omega]

/-- Settles O17: `PACK.EVEN` is the packer with mode 0. -/
theorem packEvenOutput : Obligations.PackEvenOutput :=
  ⟨decode_encode .packEven, packOutput_of_exec fun _ => rfl⟩

/-- Settles O18: `PACK.ODD` is the packer with mode 1. -/
theorem packOddOutput : Obligations.PackOddOutput :=
  ⟨decode_encode .packOdd, packOutput_of_exec fun _ => rfl⟩

end Sys2Proof.Machine
end

section
/-! SUPPORT. One micro-step of the packer (41_pack.md R100), and the byte of `IN` that its last step leaves alone
(R101). -/

namespace Sys2Proof.Machine

/-- A step with a pack opcode latched is a micro-step of the packer, or the completion (R100, R129). -/
theorem step_pack {s : State} (hp : s.phase = .run) (ho : s.offered = false) (hc : opClass s.opl = .pack) :
    step s = if s.blk < s.nblk then packMicro s else .next (s.completeBuffer (9 * s.nblk)) := by
  simp [step, microStep, hp, ho, hc]

/-- The position after an advance inside a block, as a number (R127). -/
theorem State.nextPos_eq_ofNat (s : State) (out : Memory) (carry : Byte) :
    s.nextPos out carry =
      { s with out := out, carry := carry, pos := BitVec.ofNat 4 (s.pos.toNat + 1) } := by
  rw [State.nextPos, BitVec.ofNat_add, BitVec.ofNat_toNat, BitVec.setWidth_eq]
  rfl

/-- Settles O44: by the equation of `packMicro` for each position. -/
theorem packMicroStep : Obligations.PackMicroStep := by
  intro s hp ho hc hb
  have hstep : step s = packMicro s := by rw [step_pack hp ho hc, if_pos hb]
  refine ⟨fun h0 cur hr => ?_, fun j h1 h7 hj prev cur hprev hcur => ?_, fun h8 prev hprev => ?_⟩
  · rw [hstep, packMicro_first s h0, State.readIn_some _ _ _ _ hr, State.nextPos_eq_ofNat, h0]
    rfl
  · subst hj
    rw [hstep, packMicro_middle s h1 h7 hprev, State.readIn_some _ _ _ _ hcur, State.nextPos_eq_ofNat]
  · rw [hstep, packMicro_last s h8 hprev]
    rfl

/-- The last step of a packed block reads the last byte of its raw block and no other (R101). -/
theorem packMicro_last_eq_readIn (s : State) (h8 : s.pos.toNat = 8) :
    packMicro s = s.readIn (8 * s.blk + 7) fun prev => .next
      (s.afterBlocks 1 (9 * s.blk + 8) [s.carry ||| bitAt (par (opMode s.opl) prev) 0]) := by
  simp [packMicro, State.advance, State.afterBlocks, h8]

/-- A read of `IN` depends on the byte read only. -/
theorem State.readIn_congr {s t : State} {i : Nat} (h : t.inp.read i = s.inp.read i)
    (k : Byte → Host.Outcome State Fault Refusal) : t.readIn i k = s.readIn i k := by
  rw [State.readIn, State.readIn, h]

/-- Settles O47: the one byte read is not the one changed, and completion reads none. -/
theorem lastPackStepReadsNoNinthByte : Obligations.LastPackStepReadsNoNinthByte := by
  intro s w hp ho hc h8
  have hread := Memory.read_write_ne s.inp w (show 8 * s.blk + 8 ≠ 8 * s.blk + 7 by omega)
  rw [step_pack hp ho hc]
  refine (step_pack (s := { s with inp := s.inp.write (8 * s.blk + 8) w }) hp ho hc).trans ?_
  by_cases hb : s.blk < s.nblk
  · rw [if_pos hb, if_pos hb, packMicro_last_eq_readIn s h8, mapNext_readIn]
    exact (packMicro_last_eq_readIn { s with inp := s.inp.write (8 * s.blk + 8) w } h8).trans
      (State.readIn_congr hread _)
  · rw [if_neg hb, if_neg hb]
    rfl

end Sys2Proof.Machine
end

section
/-! SUPPORT. Unpacked buffers by byte and by bit (42_unpack.md R111): each raw byte is the formula of R111 on the
two encoded bytes that hold its bits. -/

namespace Sys2Proof.Machine

/-- Bit `k` of a raw byte stands in the first of its two encoded bytes from bit `j` up, in the second below. -/
theorem getLsbD_decByte (e next : Byte) (j : Nat) {k : Nat} (hk : k < 8) :
    (decByte j e next).getLsbD k = if j ≤ k then e.getLsbD (k - j) else next.getLsbD (8 - j + k) := by
  rw [decByte, BitVec.getLsbD_or, getLsbD_shl8 _ _ hk, getLsbD_shr]
  split
  next h => rw [BitVec.getLsbD_of_ge next (8 - j + k) (by omega)]; simp [h]
  next h => simp [h]

/-- The two parts of a raw byte share no bit, so as a number it is their sum (R111). -/
theorem toNat_decByte (e next : Byte) {j : Nat} (hj : j ≤ 8) :
    (decByte j e next).toNat = 2 ^ j * (e.toNat % 2 ^ (8 - j)) + next.toNat / 2 ^ (8 - j) := by
  have hnext : next.toNat / 2 ^ (8 - j) < 2 ^ j := by
    rw [Nat.div_lt_iff_lt_mul (Nat.two_pow_pos _), ← pow_add, Nat.add_sub_cancel' hj]
    exact next.isLt
  rw [decByte, BitVec.toNat_or, toNat_shl8 e (Nat.add_sub_cancel' hj), toNat_shr,
    ← Nat.two_pow_add_eq_or_of_lt hnext]

/-- Byte `j` of the block that nine bytes unpack to (R111). -/
theorem getElem?_unpackBytes_block {block : List Byte} (h : block.length = 9) {j : Nat} (hj : j < 8) :
    (unpackBytes block)[j]? = some (decByte j (block[j]?.getD 0) (block[j + 1]?.getD 0)) := by
  match block, h with
  | [_, _, _, _, _, _, _, _, _], _ => interval_cases j <;> rfl

/-- Byte `j` of unpacked block `k` is the formula of R111 on the encoded bytes from place `9 * k + j`. Bytes
after the last whole block do not matter. -/
theorem getElem?_unpackBytes {enc : List Byte} {k j : Nat} (hk : k < enc.length / 9) (hj : j < 8) :
    (unpackBytes enc)[8 * k + j]? =
      some (decByte j (enc[9 * k + j]?.getD 0) (enc[9 * k + j + 1]?.getD 0)) := by
  have hbefore : (enc.take (9 * k)).length = 9 * k := by rw [List.length_take]; omega
  have hblock : ((enc.drop (9 * k)).take 9).length = 9 := by rw [List.length_take, List.length_drop]; omega
  have hsplit : unpackBytes enc = unpackBytes (enc.take (9 * k)) ++
      (unpackBytes ((enc.drop (9 * k)).take 9) ++ unpackBytes ((enc.drop (9 * k)).drop 9)) := by
    rw [← unpackBytes_append _ _ (by omega), List.take_append_drop, ← unpackBytes_append _ _ (by omega),
      List.take_append_drop]
  have hlenBefore : (unpackBytes (enc.take (9 * k))).length = 8 * k := by
    rw [length_unpackBytes _ (by omega)]
    omega
  have hlenBlock : (unpackBytes ((enc.drop (9 * k)).take 9)).length = 8 := by
    rw [length_unpackBytes _ (by omega), hblock]
  rw [hsplit, List.getElem?_append_right (by omega), hlenBefore, Nat.add_sub_cancel_left,
    List.getElem?_append_left (by omega), getElem?_unpackBytes_block hblock hj,
    List.getElem?_take_of_lt (by omega), List.getElem?_take_of_lt (by omega), List.getElem?_drop,
    List.getElem?_drop, Nat.add_assoc]

/-- Settles O26: with the raw byte as the sum of its parts, both sides are numbers of the bytes of the block. -/
theorem unpackedBlockFromNumber : Obligations.UnpackedBlockFromNumber := by
  intro e0 e1 e2 e3 e4 e5 e6 e7 e8 i hi
  have hbyte := getElem?_unpackBytes_block (block := [e0, e1, e2, e3, e4, e5, e6, e7, e8]) rfl hi
  refine ⟨_, hbyte, ?_⟩
  rw [toNat_decByte _ _ (by omega)]
  interval_cases i <;>
  · simp only [bigEndian, List.length, List.getElem?_cons_zero, List.getElem?_cons_succ, Option.getD_some]
    omega

end Sys2Proof.Machine
end

section
/-! SUPPORT. The unpacker as a function on buffers (42_unpack.md R112, R118): its laws of length and concatenation,
and the parity bits it does not read. -/

namespace Sys2Proof.Machine

/-- Settles O28: eight bytes for every nine, and block after block. -/
theorem unpackLengthAndConcatenation : Obligations.UnpackLengthAndConcatenation := by
  intro x y hx _
  refine ⟨?_, unpackBytes_nil, unpackBytes_append x y hx⟩
  rw [length_unpackBytes x hx]
  omega

/-- Fewer bytes than a block unpack to nothing. -/
theorem unpackBytes_of_length_lt {enc : List Byte} (h : enc.length < 9) : unpackBytes enc = [] := by
  unfold unpackBytes
  split
  · simp only [List.length_cons] at h; omega
  · rfl

/-- The length law of R118 for any buffer: bytes that do not fill a block produce nothing. -/
theorem length_unpackBytes_div (enc : List Byte) : (unpackBytes enc).length = 8 * (enc.length / 9) := by
  have hwhole : (enc.take (9 * (enc.length / 9))).length = 9 * (enc.length / 9) := by
    rw [List.length_take]; omega
  have hrest : (enc.drop (9 * (enc.length / 9))).length < 9 := by rw [List.length_drop]; omega
  rw [← List.take_append_drop (9 * (enc.length / 9)) enc, unpackBytes_append _ _ (by omega),
    unpackBytes_of_length_lt hrest, List.append_nil, length_unpackBytes _ (by omega),
    List.take_append_drop, hwhole, Nat.mul_div_cancel_left _ (by decide)]

theorem not_parMask_and_curMask : ∀ j ≤ 8, ~~~(parMask j) &&& curMask j = curMask j := by decide

theorem not_parMask_and_carryMask : ∀ j ≤ 8, ~~~(parMask j) &&& carryMask j = carryMask j := by decide

/-- A raw byte is the same with the parity bits of both its encoded bytes cleared: neither mask through which the
unpacker reads them (R68) selects a parity bit (R112). -/
theorem decByte_and_not_parMask (e next : Byte) {j : Nat} (hj : j ≤ 7) :
    decByte j (e &&& ~~~(parMask j)) (next &&& ~~~(parMask (j + 1))) = decByte j e next := by
  obtain ⟨-, -, hmasks⟩ := stepMasksSelectTheComponents
  rw [hmasks _ _ _ hj, hmasks j e next hj, BitVec.and_assoc, BitVec.and_assoc,
    not_parMask_and_curMask j (by omega), not_parMask_and_carryMask (j + 1) (by omega)]

/-- Settles O27: byte by byte, each raw byte being that of two encoded bytes with their parity bits cleared. -/
theorem unpackIgnoresParityBits : Obligations.UnpackIgnoresParityBits := by
  intro x y hlen hxy
  have hstrip : ∀ k j, j ≤ 8 → 9 * k + j < x.length →
      x[9 * k + j]?.getD 0 &&& ~~~(parMask j) = y[9 * k + j]?.getD 0 &&& ~~~(parMask j) := by
    intro k j hj ha
    have hmod : (9 * k + j) % 9 = j := by omega
    simpa [ha, hlen ▸ ha, hmod] using hxy (9 * k + j) ha (hlen ▸ ha)
  refine List.ext_getElem? fun a => ?_
  by_cases ha : a < 8 * (x.length / 9)
  · obtain ⟨k, j, hj, rfl⟩ : ∃ k j, j < 8 ∧ a = 8 * k + j := ⟨a / 8, a % 8, by omega, by omega⟩
    rw [getElem?_unpackBytes (enc := x) (by omega) hj, getElem?_unpackBytes (enc := y) (by omega) hj,
      ← decByte_and_not_parMask _ _ (by omega), hstrip k j (by omega) (by omega),
      Nat.add_assoc, hstrip k (j + 1) (by omega) (by omega), decByte_and_not_parMask _ _ (by omega)]
  · rw [List.getElem?_eq_none (by rw [length_unpackBytes_div]; omega),
      List.getElem?_eq_none (by rw [length_unpackBytes_div]; omega)]

end Sys2Proof.Machine
end

section
/-! SUPPORT. The laws that tie the unpacker to the packer (42_unpack.md R115, R116). -/

namespace Sys2Proof.Machine

/-- The bits of a raw byte are read back from the two encoded bytes that hold them, in either mode (R115). -/
theorem decByte_encByte (m : Bit) {j : Nat} (prev cur next : Byte) (hj : j ≤ 7) :
    decByte j (encByte m j prev cur) (encByte m (j + 1) cur next) = cur := by
  refine BitVec.eq_of_getLsbD_eq fun k hk => ?_
  rw [getLsbD_decByte _ _ _ hk]
  split
  next h => rw [getLsbD_encByte_of_lt _ _ _ (by omega), Nat.add_sub_cancel' h]
  next h =>
    rw [getLsbD_encByte_of_gt _ _ _ (by omega) (by omega) (by omega), show 8 - j + k - (9 - (j + 1)) = k by omega]

/-- Unpacking what either mode packed, on whole blocks (R115). -/
theorem unpackBytes_packBytes (m : Bit) {raw : List Byte} (h : raw.length % 8 = 0) :
    unpackBytes (packBytes m raw) = raw := by
  have hlen := length_packBytes m raw h
  refine List.ext_getElem? fun a => ?_
  by_cases ha : a < raw.length
  · obtain ⟨k, j, hj, rfl⟩ : ∃ k j, j < 8 ∧ a = 8 * k + j := ⟨a / 8, a % 8, by omega, by omega⟩
    rw [getElem?_unpackBytes (by omega) hj, getElem?_packBytes m h (by omega) (by omega), Nat.add_assoc (9 * k),
      getElem?_packBytes m h (by omega) (by omega), Option.getD_some, Option.getD_some, ← Nat.add_assoc (8 * k),
      Nat.add_sub_cancel, decByte_encByte m _ _ _ (by omega), List.getElem?_eq_getElem ha, Option.getD_some]
  · rw [List.getElem?_eq_none (by rw [length_unpackBytes_div]; omega), List.getElem?_eq_none (by omega)]

/-- Settles O29: the round trip, with nine bytes for every eight. -/
theorem unpackAfterPackIsIdentity : Obligations.UnpackAfterPackIsIdentity := by
  intro m raw h
  refine ⟨unpackBytes_packBytes m h, ?_, ?_⟩
  · rw [length_packBytes m raw h, Nat.mul_mod_right]
  · rw [unpackLen, length_packBytes m raw h, Config.encBlk]
    omega

/-- An encoded byte made from the raw bytes on either side of its place has the bits of the byte it was read from,
but for the parity bit (R116). -/
theorem encByte_decByte_eq_iff (m : Bit) {j : Nat} (before e after : Byte) (h1 : 1 ≤ j) (h8 : j ≤ 8) :
    encByte m j (decByte (j - 1) before e) (decByte j e after) = e ↔
      (e.getLsbD (8 - j) = true ↔ par m (decByte (j - 1) before e) = 1) := by
  have hparity := getLsbD_encByte_of_eq m (decByte (j - 1) before e) (decByte j e after) h1
    (Nat.sub_add_cancel h8)
  constructor
  · intro h
    rw [h] at hparity
    rw [hparity, decide_eq_true_iff]
  · intro h
    refine BitVec.eq_of_getLsbD_eq fun k hk => ?_
    rcases Nat.lt_trichotomy (k + j) 8 with hlt | heq | hgt
    · rw [getLsbD_encByte_of_lt _ _ _ hlt, getLsbD_decByte _ _ _ (by omega), if_pos (by omega),
        Nat.add_sub_cancel_left]
    · obtain rfl : k = 8 - j := by omega
      rw [hparity, Bool.eq_iff_iff, decide_eq_true_iff, h]
    · rw [getLsbD_encByte_of_gt _ _ _ h8 hk hgt, getLsbD_decByte _ _ _ (by omega), if_neg (by omega),
        show 8 - (j - 1) + (k - (9 - j)) = k by omega]

theorem decByte_zero (e next : Byte) : decByte 0 e next = e :=
  BitVec.eq_of_getLsbD_eq fun k hk => by rw [getLsbD_decByte _ _ _ hk, if_pos (Nat.zero_le k), Nat.sub_zero]

section
variable (m : Bit) {x : List Byte} (h : x.length % 9 = 0) {k : Nat} (hk : k < x.length / 9)
include h hk

/-- The first byte of a block comes back (R91, R111). -/
theorem getElem?_packBytes_unpackBytes_zero : (packBytes m (unpackBytes x))[9 * k]? = x[9 * k]? := by
  have hraw := length_unpackBytes x h
  have hin : 9 * k < x.length := by omega
  refine (getElem?_packBytes m (j := 0) (by omega) (by omega) (by omega)).trans ?_
  rw [encByte_zero, getElem?_unpackBytes hk (by omega), Option.getD_some, decByte_zero, Nat.add_zero,
    List.getElem?_eq_getElem hin, Option.getD_some]

/-- Any other byte of a block comes back exactly when its parity bit is right (R116). -/
theorem getElem?_packBytes_unpackBytes_eq_iff {j : Nat} (h1 : 1 ≤ j) (h8 : j ≤ 8) {e r : Byte}
    (he : x[9 * k + j]? = some e) (hr : (unpackBytes x)[8 * k + j - 1]? = some r) :
    (packBytes m (unpackBytes x))[9 * k + j]? = some e ↔ (e.getLsbD (8 - j) = true ↔ par m r = 1) := by
  have hraw := length_unpackBytes x h
  have hbyte : r = decByte (j - 1) (x[9 * k + (j - 1)]?.getD 0) e := by
    rw [Nat.add_sub_assoc h1, getElem?_unpackBytes hk (by omega), Nat.add_assoc, Nat.sub_add_cancel h1, he] at hr
    exact (Option.some.inj hr).symm
  have hafter : encByte m j r ((unpackBytes x)[8 * k + j]?.getD 0) =
      encByte m j r (decByte j e (x[9 * k + j + 1]?.getD 0)) := by
    obtain rfl | h7 := Nat.eq_or_lt_of_le h8
    · rw [encByte_eight, encByte_eight]
    · rw [getElem?_unpackBytes hk h7, he, Option.getD_some, Option.getD_some]
  rw [getElem?_packBytes m (by omega) (by omega) h8, hr, Option.getD_some, hafter, Option.some_inj, hbyte]
  exact encByte_decByte_eq_iff m _ e _ h1 h8

end

/-- Settles O30: byte by byte; the first byte of a block always comes back, any other by its parity bit. -/
theorem packAfterUnpackExactly : Obligations.PackAfterUnpackExactly := by
  intro m x h
  have hraw := length_unpackBytes x h
  have hpacked := length_packBytes m (unpackBytes x) (by omega)
  constructor
  · intro hx k hk j h1 h8
    have he : x[9 * k + j]? = some x[9 * k + j] := List.getElem?_eq_getElem (by omega)
    have hr : (unpackBytes x)[8 * k + j - 1]? = some (unpackBytes x)[8 * k + j - 1] :=
      List.getElem?_eq_getElem (by omega)
    exact ⟨_, _, he, hr, (getElem?_packBytes_unpackBytes_eq_iff m h hk h1 h8 he hr).mp (by rw [hx, he])⟩
  · intro hpar
    refine List.ext_getElem? fun a => ?_
    by_cases ha : a < x.length
    · obtain ⟨k, j, hj, rfl⟩ : ∃ k j, j < 9 ∧ a = 9 * k + j := ⟨a / 9, a % 9, by omega, by omega⟩
      obtain rfl | h1 := Nat.eq_zero_or_pos j
      · exact getElem?_packBytes_unpackBytes_zero m h (by omega)
      · obtain ⟨e, r, he, hr, hbit⟩ := hpar k (by omega) j h1 (by omega)
        rw [he]
        exact (getElem?_packBytes_unpackBytes_eq_iff m h (by omega) h1 (by omega) he hr).mpr hbit
    · rw [List.getElem?_eq_none (by omega), List.getElem?_eq_none (by omega)]

end Sys2Proof.Machine
end

section
/-! SUPPORT. The unpack command, by every byte of its output (42_unpack.md R111, R113, R114), and the round trip on
the machine (R115, R119). -/

namespace Sys2Proof.Machine

/-- Both opcodes of UNPACK are the unpack command (R64). -/
theorem exec_unpack_or_alias {i : Instr} (h : i = .unpack ∨ i = .unpackAlias) :
    ∃ op, ∀ s, exec i s = unpackCommand op s := by
  obtain rfl | rfl := h
  · exact ⟨_, fun _ => rfl⟩
  · exact ⟨_, fun _ => rfl⟩

/-- PACK.EVEN and PACK.ODD are the pack command, each with its mode (R62). -/
theorem exec_packEven_or_packOdd {i : Instr} (h : i = .packEven ∨ i = .packOdd) :
    ∃ m op, ∀ s, exec i s = packCommand m op s := by
  obtain rfl | rfl := h
  · exact ⟨_, _, fun _ => rfl⟩
  · exact ⟨_, _, fun _ => rfl⟩

/-- Settles O24: a valid length by the bytes of an unpacked buffer, another by the error entry. -/
theorem unpackOutput : Obligations.UnpackOutput := by
  refine ⟨decode_encode .unpack, decode_encode .unpackAlias, fun i s f hi hp hl hf => ?_, fun i s hi hp hl => ?_⟩
  · obtain ⟨op, hop⟩ := exec_unpack_or_alias hi
    have hr := Memory.readList_eq_map_range hf
    have hlen := length_unpackBytes_of_readList hl hr
    refine ⟨_, (hop s).trans (unpackCommand_valid op s _ hp hl hr), ⟨rfl, rfl, rfl, rfl⟩, ⟨rfl, rfl, rfl, rfl⟩,
      State.outKeptFrom_of_writeList rfl hlen, fun k hk j hj => ?_⟩
    have hget : ∀ a, a < s.len → ((List.range s.len).map f)[a]?.getD 0 = f a := fun a ha => by simp [ha]
    refine (Memory.read_writeList _ _ _ _).trans ?_
    rw [if_pos ⟨Nat.zero_le _, by omega⟩, Nat.sub_zero, getElem?_unpackBytes (by simpa using hk) (by omega),
      hget _ (by omega), hget _ (by omega), decByte]
  · obtain ⟨op, hop⟩ := exec_unpack_or_alias hi
    exact ⟨_, (hop s).trans (unpackCommand_invalid op s hp hl), s.errorEntry_accept_raise _⟩

/-- Settles O31: the second core reads the packed bytes of the first, and writes the raw bytes they unpack to. -/
theorem roundTripOnTheMachine : Obligations.RoundTripOnTheMachine := by
  intro i j s t u hi hj hx hok hp hlen hin
  obtain ⟨m, op, hop⟩ := exec_packEven_or_packOdd hi
  obtain ⟨op', hop'⟩ := exec_unpack_or_alias hj
  obtain ⟨-, ⟨-, rfl⟩ | ⟨hl, raw, hr, rfl⟩⟩ := packCommand_next ((hop s).symm.trans hx)
  · cases hok
  have hpacked := length_packBytes_of_readList m hl hr
  obtain ⟨hraw, hbyte⟩ := (Memory.readList_eq_some _ _ _ _).mp hr
  have hulen : u.len = s.len + s.len / 8 := Option.some.inj hlen
  have hread : u.inp.readList 0 u.len = some (packBytes m raw) := by
    refine (Memory.readList_eq_some _ _ _ _).mpr ⟨by omega, fun k hk => ?_⟩
    rw [Nat.zero_add, hin k (by omega)]
    simpa using Memory.read_writeList_inside s.out 0 k (packBytes m raw) hk
  have hv := (hop' u).trans (unpackCommand_valid op' u _ hp (by omega) hread)
  rw [unpackBytes_packBytes m (by omega)] at hv
  refine ⟨_, hv, rfl, congrArg some (show u.len - u.len / 9 = s.len by omega), fun a ha => ?_⟩
  have ha : a < raw.length := by omega
  rw [← Nat.zero_add a, hbyte a ha]
  exact Memory.read_writeList_inside u.out 0 a raw ha

end Sys2Proof.Machine
end

section
/-! SUPPORT. One micro-step of the unpacker (42_unpack.md R117). -/

namespace Sys2Proof.Machine

/-- A step with an unpack opcode latched is a micro-step of the unpacker, or the completion (R117, R129). -/
theorem step_unpack {s : State} (hp : s.phase = .run) (ho : s.offered = false) (hc : opClass s.opl = .unpack) :
    step s = if s.blk < s.nblk then unpackMicro s else .next (s.completeBuffer (8 * s.nblk)) := by
  simp [step, microStep, hp, ho, hc]

/-- Settles O45: by the equation of `unpackMicro` for each position. -/
theorem unpackMicroStep : Obligations.UnpackMicroStep := by
  intro s hp ho hc hb i e hi hr
  have hstep : step s = unpackMicro s := by rw [step_unpack hp ho hc, if_pos hb]
  refine ⟨fun h0 => ?_, fun h1 h7 => ?_, fun h8 => ?_⟩
  · subst h0
    rw [Nat.add_zero] at hr
    rw [hstep, unpackMicro_first s hi, State.readIn_some _ _ _ _ hr, State.nextPos_eq_ofNat, hi]
    rfl
  · obtain ⟨j, rfl⟩ := Nat.exists_eq_add_of_le' h1
    rw [hstep, unpackMicro_middle s hi (by omega), State.readIn_some _ _ _ _ hr, State.nextPos_eq_ofNat, hi,
      show 9 - (j + 1) = 8 - j by omega]
    rfl
  · subst h8
    rw [hstep, unpackMicro_last s hi, State.readIn_some _ _ _ _ hr]
    rfl

end Sys2Proof.Machine
end

section
/-! SUPPORT. The sequence of one command (43_sequencing.md R125, R126, R127, R129, R169): its acceptance, its
completion, and the in-call registers after it. -/

namespace Sys2Proof.Machine

/-- In RUN no command is accepted (R169). -/
theorem exec_run (i : Instr) {s : State} (h : s.phase = .run) : exec i s = .refused .commandOfferedInRun := by
  rw [exec_eq_of_class]
  cases opClass (encode i) with
  | par => exact s.accepted_run _ h
  | pack => exact s.accepted_run _ h
  | unpack => exact s.accepted_run _ h
  | reserved => exact s.accepted_run _ h

/-- Settles O37: each of the three moves begins by looking at the phase. -/
theorem noCommandIsAcceptedInRun : Obligations.NoCommandIsAcceptedInRun := by
  refine fun i s o h => ⟨exec_run i h, ?_, fun ho => ?_⟩
  · simp only [State.present, h]
  · simp only [step, h, ho, if_true]

/-- The number of an opcode, read from a table word wide enough for it, spells that opcode (R60). -/
theorem opOfWord_toNat_mod (op : OpWord) {nbits : Nat} (h : 3 ≤ nbits) :
    opOfWord (op.toNat % 2 ^ nbits) = .ok op := by
  have hlt : op.toNat < 2 ^ nbits := op.isLt.trans_le (Nat.pow_le_pow_right (by omega) h)
  rw [Nat.mod_eq_of_lt hlt, opOfWord, if_pos op.isLt, BitVec.ofNat_toNat, BitVec.setWidth_eq]

/-- The word of a command, fetched, stands on `OP` and is offered (log 3). -/
theorem State.withFetchWord_encode (s : State) (i : Instr) {nbits : Nat} (h : 3 ≤ nbits) :
    s.withFetchWord nbits (encode i).toNat = { s with op := encode i, offered := true, phase := .idle } := by
  simp only [State.withFetchWord, opOfWord_toNat_mod _ h]

/-- Settles O42: by the phase and the flag; a fetched word is the offer of the command it spells. -/
theorem stepRunsTheDecodedCommand : Obligations.StepRunsTheDecodedCommand := by
  refine ⟨fun s => step_offered, fun s hp ho => ?_, fun s hp ho => ?_, fun s i nbits hn => ?_⟩
  · simp [step, hp, ho]
  · simp [step, hp, ho]
  · rw [s.withFetchWord_encode i hn, step_offered rfl rfl, decode_encode]

/-- Settles O43: the acceptance latches, then starts the first block. -/
theorem acceptanceLatchesTheCommand : Obligations.AcceptanceLatchesTheCommand :=
  fun _ _ hp hc hl => ⟨_, microAccept_of_valid hp hc hl, rfl, rfl, rfl, rfl, rfl, rfl, rfl, rfl, rfl,
    ⟨rfl, rfl, rfl, rfl⟩, rfl⟩

/-- The parity commands are the two of class PAR (R60, R61). -/
theorem opClass_encode_eq_par_iff (i : Instr) : opClass (encode i) = .par ↔ i = .parEven ∨ i = .parOdd := by
  cases i <;> decide

/-- A command whose class is not PAR is no parity command. -/
theorem not_par_of_opClass {i : Instr} {c : CmdClass} (hc : opClass (encode i) = c) (h : c ≠ .par) :
    ¬ (i = .parEven ∨ i = .parOdd) := by
  rwa [← opClass_encode_eq_par_iff, hc]

/-- Settles O39: by the shapes of `exec_next`, of which the two errors do not report STATUS OK. -/
theorem inCallRegistersAfterCommand : Obligations.InCallRegistersAfterCommand := by
  intro i s t h hok
  obtain ⟨-, ⟨hc, rfl⟩ | ⟨hc, -, raw, -, rfl⟩ | ⟨hc, -, enc, -, rfl⟩ | ⟨-, rfl⟩ | ⟨-, rfl⟩⟩ := exec_next h
  · exact ⟨rfl, by rw [hc]; rfl, rfl, rfl, fun _ => ⟨rfl, rfl⟩,
      fun hn => absurd ((opClass_encode_eq_par_iff i).mp hc) hn⟩
  · exact ⟨rfl, by rw [hc]; rfl, rfl, rfl, fun hi => absurd hi (not_par_of_opClass hc (by decide)),
      fun _ => ⟨rfl, rfl⟩⟩
  · exact ⟨rfl, by rw [hc]; rfl, rfl, rfl, fun hi => absurd hi (not_par_of_opClass hc (by decide)),
      fun _ => ⟨rfl, rfl⟩⟩
  · cases hok
  · cases hok

end Sys2Proof.Machine
end

section
/-! SUPPORT. Completion (43_sequencing.md R129): a command that can be executed gives the result of an offer the
core holds, and what that result says of each port. -/

namespace Sys2Proof.Machine

/-- A core that can execute a command holds an offer of it (R163, R167). -/
theorem State.Ready.exists_holds {i : Instr} {s : State} (h : s.Ready i) :
    ∃ o : Offer, o.len = s.len ∧ s.Holds i o := by
  obtain ⟨-, hread⟩ := h
  obtain ⟨bytes, hbytes⟩ := Memory.readList_of_isSome s.inp 0 (inLength (opClass (encode i)) s.len)
    fun k hk => by simpa using hread k hk
  have hlen := ((Memory.readList_eq_some _ _ _ _).mp hbytes).1
  exact ⟨⟨encode i, s.len, s.b, bytes, 0, 0, 0⟩, rfl, rfl, rfl, rfl,
    by rw [List.take_of_length_le hlen.le]; exact hbytes⟩

/-- A result is what stands on the three ports and in the bytes of `OUT` that it reports (R129). -/
theorem State.result_eq_some {s : State} {r : CommandResult} (h : s.result = some r) :
    s.status = some r.status ∧ s.outLen = some r.outLen ∧ s.p = r.p ∧
      s.out.readList 0 r.outLen = some r.out := by
  unfold State.result at h
  split at h
  · next st l hst hl =>
    split at h
    · next bytes hbytes =>
      cases h
      exact ⟨hst, hl, rfl, hbytes⟩
    · cases h
  · cases h

/-- Bytes that can be read as a list have all been written (R46). -/
theorem State.outWritten_of_readList {s : State} {n : Nat} {bytes : List Byte}
    (h : s.out.readList 0 n = some bytes) : s.OutWritten n := by
  obtain ⟨rfl, hread⟩ := (Memory.readList_eq_some _ _ _ _).mp h
  intro k hk
  have hk' := hread k hk
  rw [Nat.zero_add] at hk'
  simp [hk']

/-- The reserved opcodes are those of class 3 (R60). -/
theorem opClass_eq_reserved_iff (op : OpWord) : opClass op = .reserved ↔ op.toNat / 2 = 3 := by
  revert op; decide

/-- The table of completion, the column of STATUS (R129, R145). -/
theorem resultAlone_status (o : Offer) :
    (resultAlone o).status = if o.op.toNat / 2 = 3 then .illegalCommand
      else if lengthOk (opClass o.op) o.len then .ok else .invalidLength := by
  rw [← if_congr (opClass_eq_reserved_iff o.op) rfl rfl]
  unfold resultAlone
  cases opClass o.op with
  | par => rfl
  | reserved => rfl
  | pack => cases lengthOk .pack o.len <;> rfl
  | unpack => cases lengthOk .unpack o.len <;> rfl

/-- The column of OUTLEN (R129, R145). -/
theorem resultAlone_outLen (o : Offer) : (resultAlone o).outLen = outLength (opClass o.op) o.len := by
  unfold resultAlone
  cases opClass o.op with
  | par => rfl
  | reserved => rfl
  | pack => by_cases hl : o.len % 8 = 0 <;> simp [outLength, hl, CommandResult.error]
  | unpack => by_cases hl : o.len % 9 = 0 <;> simp [outLength, hl, CommandResult.error]

/-- The column of P: the parity commands alone give it a value (R129). -/
theorem isSome_resultAlone_p (o : Offer) : (resultAlone o).p.isSome = true ↔ opClass o.op = .par := by
  unfold resultAlone
  cases opClass o.op with
  | par => simp
  | reserved => simp [CommandResult.error]
  | pack => cases lengthOk .pack o.len <;> simp [CommandResult.error]
  | unpack => cases lengthOk .unpack o.len <;> simp [CommandResult.error]

/-- Settles O35: the core holds an offer, whose result has the columns of the table. -/
theorem everyReadyCommandCompletes : Obligations.EveryReadyCommandCompletes := by
  intro i s h
  obtain ⟨o, hlen, ho⟩ := h.exists_holds
  obtain ⟨hidle, -⟩ := h
  obtain ⟨t, hx, hres, hp, -⟩ := ho.exec_result hidle
  obtain ⟨hst, hl, hpar, hout⟩ := State.result_eq_some hres
  rw [resultAlone_outLen] at hl hout
  rw [← hlen, ho.op, ← opClass_encode_eq_par_iff, ho.op, ← isSome_resultAlone_p, ← hpar, ← resultAlone_status]
  exact ⟨t, hx, hp, hst, hl, State.outWritten_of_readList hout, Iff.rfl⟩

/-- Settles O59: by induction on the run; each command gives its own result and leaves the core ready for the
next. -/
theorem runResultIsListOfResultsAlone : Obligations.RunResultIsListOfResultsAlone := by
  intro os
  induction os with
  | nil => exact fun _ _ _ _ => rfl
  | cons o os ih =>
    intro s hwf hp hs
    obtain ⟨ho, hos⟩ := List.forall_mem_cons.mp hwf
    obtain ⟨t, hx, hres, htp, hts⟩ := offerGivesItsOwnResult o s ho hp hs
    simp only [runOffers, hx, hres, ih t hos htp hts, List.map_cons]

end Sys2Proof.Machine
end

section
/-! SUPPORT. The moves of the host and the reset event keep the invariant (43_sequencing.md R125,
70_reset_and_hazards.md R160 to R173). -/

namespace Sys2Proof.Machine

/-- In IDLE the invariant asks of `IN` its canonical form alone. -/
theorem State.Inv.setInp {s : State} (h : s.Inv) (hp : s.phase = .idle) {m : Memory} (hm : m.wf = true) :
    ({ s with inp := m } : State).Inv := by
  obtain ⟨⟨-, hout⟩, hcarry, hpos, hblk⟩ := h.idle hp
  obtain ⟨-, -, hres, -⟩ := h
  exact State.inv_of_idle hp ⟨hm, hout⟩ hres hcarry hpos hblk

/-- In RUN inside a block, that block is one of the command (R127). -/
theorem State.Inv.blk_lt_of_pos {s : State} (h : s.Inv) (hp : s.phase = .run) (hj : 1 ≤ s.pos.toNat) :
    s.blk < s.nblk := by
  obtain ⟨-, -, -, -, hrun, -⟩ := h
  obtain ⟨-, -, -, -, hle, hend⟩ := hrun hp
  refine lt_of_le_of_ne hle fun heq => ?_
  simp [hend heq] at hj

/-- A pack command holds the input of its blocks from the host (R164). -/
theorem State.inHeld_run_pack (s : State) (hp : s.phase = .run) (hc : opClass s.opl = .pack) :
    s.inHeld = 8 * s.nblk := by
  simp only [State.inHeld, hp, hc]

/-- An unpack command holds the input of its blocks from the host (R164). -/
theorem State.inHeld_run_unpack (s : State) (hp : s.phase = .run) (hc : opClass s.opl = .unpack) :
    s.inHeld = 9 * s.nblk := by
  simp only [State.inHeld, hp, hc]

/-- A write of a byte of `IN` that is not held leaves the byte in the carry alone (R164, R100, R117). -/
theorem State.Inv.writeInp {s : State} (h : s.Inv) {i : Nat} (v : Byte) (hi : ¬ i < s.inHeld) :
    ({ s with inp := s.inp.write i v } : State).Inv := by
  obtain ⟨⟨hin, hout⟩, hpos, hres, hrest, hrun, hcarry, hwritten⟩ := id h
  refine ⟨⟨Memory.wf_write _ _ _ hin, hout⟩, hpos, hres, hrest, hrun, fun (hp : s.phase = .run) => ?_, hwritten⟩
  obtain ⟨hzero, hpack, hunpack⟩ := hcarry hp
  refine ⟨hzero, fun (hj : 1 ≤ s.pos.toNat) hc => ?_, fun (hj : 1 ≤ s.pos.toNat) hc => ?_⟩
  · obtain ⟨u, hu, hcu⟩ := hpack hj hc
    have hb := h.blk_lt_of_pos hp hj
    rw [s.inHeld_run_pack hp hc] at hi
    exact ⟨u, (Memory.read_write_ne _ _ (by dsimp only; omega)).trans hu, hcu⟩
  · obtain ⟨u, hu, hcu⟩ := hunpack hj hc
    have hb := h.blk_lt_of_pos hp hj
    rw [s.inHeld_run_unpack hp hc] at hi
    exact ⟨u, (Memory.read_write_ne _ _ (by dsimp only; omega)).trans hu, hcu⟩

/-- A write of the host's to `OUT` in IDLE takes no value from a byte of the result (R41, R46). -/
theorem State.Inv.writeOut_idle {s : State} (h : s.Inv) (hp : s.phase = .idle) (i : Nat) (v : Byte) :
    ({ s with out := s.out.write i v } : State).Inv := by
  obtain ⟨⟨hin, hout⟩, hcarry, hpos, hblk⟩ := h.idle hp
  obtain ⟨-, -, ⟨hboth, hpar, herr, hok⟩, -⟩ := h
  exact State.inv_of_idle hp ⟨hin, Memory.wf_write _ _ _ hout⟩
    ⟨hboth, hpar, herr, fun l hs hl k hk => Memory.isSome_read_write _ _ _ _ (hok l hs hl k hk)⟩
    hcarry hpos hblk

/-- The invariant does not speak of the host's ports nor of its offer (R25, R125). -/
theorem State.Inv.setPorts {s : State} (h : s.Inv) (op : OpWord) (n : Nat) (v : Byte) (o : Bool) :
    ({ s with op := op, len := n, b := v, offered := o } : State).Inv := h

/-- The reset event leaves the registers at rest and no result (R160, R161). -/
theorem State.Inv.resetEvent {s : State} (h : s.Inv) : s.resetEvent.Inv := by
  obtain ⟨hwf, -⟩ := h
  exact State.inv_of_idle rfl hwf (State.resultsAgree_of_no_results rfl rfl rfl) rfl rfl rfl

/-- All that the host's write of a byte of `IN` can answer as a next state (R164). -/
theorem hostWriteIn_next {s t : State} {i : Nat} {v : Byte} (h : s.hostWriteIn i v = .next t) :
    ¬ i < s.inHeld ∧ t = { s with inp := s.inp.write i v } := by
  unfold State.hostWriteIn at h
  split at h
  · cases h
  · next hi =>
    cases h
    exact ⟨hi, rfl⟩

/-- All that the host's write of a byte of `OUT` can answer as a next state (R166). -/
theorem hostWriteOut_next {s t : State} {i : Nat} {v : Byte} (h : s.hostWriteOut i v = .next t) :
    s.phase = .idle ∧ t = { s with out := s.out.write i v } := by
  unfold State.hostWriteOut at h
  split at h
  · cases h
  · next hp =>
    cases h
    exact ⟨hp, rfl⟩

/-- Settles O53: by what each move can answer. -/
theorem hostMovesKeepInvariant : Obligations.HostMovesKeepInvariant := by
  intro s h
  refine ⟨fun o t hx => ?_, fun i v t hx => ?_, fun i v t hx => ?_, h.setPorts _ _ _ _,
    fun op n v => h.setPorts op n v _, fun op n v t hx => ?_, h.resetEvent⟩
  · obtain ⟨hp, -, -, rfl⟩ := present_next hx
    obtain ⟨⟨hin, -⟩, -⟩ := id h
    exact (h.setInp hp (Memory.wf_writeList _ _ _ hin)).setPorts _ _ _ _
  · obtain ⟨hi, rfl⟩ := hostWriteIn_next hx
    exact h.writeInp v hi
  · obtain ⟨hp, rfl⟩ := hostWriteOut_next hx
    exact h.writeOut_idle hp i v
  · obtain ⟨-, rfl⟩ := hostDrivePorts_next hx
    exact h.setPorts op n v _

end Sys2Proof.Machine
end

section
/-! SUPPORT. The two errors (60_exceptions.md R141, R142, R145, R146): which commands raise them, the one state a
failed command leads to, and that a command sees of a core only what acceptance leaves. -/

namespace Sys2Proof.Machine

/-- The errors of a command with length operand `n`: `InvalidLength` of a buffer command by its class (R141),
`IllegalCommand` of a reserved opcode (R142). -/
def Raises (i : Instr) (n : Nat) : Status → Prop
  | .ok => False
  | .invalidLength =>
    (opClass (encode i) = .pack ∧ n % 8 ≠ 0) ∨ (opClass (encode i) = .unpack ∧ n % 9 ≠ 0)
  | .illegalCommand => opClass (encode i) = .reserved

/-- An idle core takes the error entry on a command that raises an error, whatever `IN` holds (R145). -/
theorem exec_of_raises {i : Instr} {s : State} {e : Status} (hp : s.phase = .idle)
    (h : Raises i s.len e) : exec i s = .next (s.accept.raise e) := by
  rw [exec_eq_of_class]
  cases e with
  | ok => exact h.elim
  | invalidLength =>
    obtain ⟨hc, hl⟩ | ⟨hc, hl⟩ := h
    · rw [hc]
      exact packCommand_invalid _ _ s hp hl
    · rw [hc]
      exact unpackCommand_invalid _ s hp hl
  | illegalCommand =>
    rw [show opClass (encode i) = .reserved from h]
    exact reservedCommand_idle s hp

/-- A command that ends without STATUS OK raised an error, and the core took the error entry (R145). -/
theorem exec_failed {i : Instr} {s t : State} (h : exec i s = .next t) (hok : t.status ≠ some .ok) :
    s.phase = .idle ∧ ∃ e, Raises i s.len e ∧ t = s.accept.raise e := by
  obtain ⟨hp, ⟨-, rfl⟩ | ⟨-, -, raw, -, rfl⟩ | ⟨-, -, enc, -, rfl⟩ | ⟨hl, rfl⟩ | ⟨hc, rfl⟩⟩ := exec_next h
  · exact absurd rfl hok
  · exact absurd rfl hok
  · exact absurd rfl hok
  · exact ⟨hp, .invalidLength, hl, rfl⟩
  · exact ⟨hp, .illegalCommand, hc, rfl⟩

/-- A command that goes on reports an error exactly when it raises it (R141, R142). -/
theorem status_eq_iff_raises {i : Instr} {s t : State} {e : Status} (h : exec i s = .next t) (he : e ≠ .ok) :
    t.status = some e ↔ Raises i s.len e := by
  constructor
  · intro hst
    obtain ⟨-, e', hr, rfl⟩ := exec_failed h (by simpa [hst] using he)
    obtain rfl : e' = e := Option.some.inj hst
    exact hr
  · intro hr
    obtain ⟨hp, -⟩ := exec_next h
    rw [exec_of_raises hp hr] at h
    cases h
    rfl

/-- Settles O15: a failed command is an error entry, which the length and the opcode alone decide. -/
theorem errorEntryWritesOnlyResults : Obligations.ErrorEntryWritesOnlyResults := by
  intro i s t e hx hst he
  obtain ⟨hp, e', hr, rfl⟩ := exec_failed hx (by simpa [hst] using he)
  obtain rfl : e' = e := Option.some.inj hst
  exact ⟨s.errorEntry_accept_raise e', fun m => exec_of_raises (s := { s with inp := m }) hp hr⟩

/-- Settles O12: the class 3 of an opcode is the one that raises `IllegalCommand`. -/
theorem illegalCommandExactly : Obligations.IllegalCommandExactly := by
  intro i s hready
  obtain ⟨t, hx, -⟩ := everyReadyCommandCompletes i s hready
  have hiff := (status_eq_iff_raises hx (e := .illegalCommand) (by decide)).trans
    (opClass_eq_reserved_iff (encode i))
  exact ⟨t, hx, hiff, fun hst => (errorEntryWritesOnlyResults i s t _ hx hst (by decide)).1⟩

/-- The pack commands are the two of class PACK (R60, R61). -/
theorem opClass_encode_eq_pack_iff (i : Instr) : opClass (encode i) = .pack ↔ i = .packEven ∨ i = .packOdd := by
  cases i <;> decide

/-- The unpack commands are the two of class UNPACK (R60, R61, R64). -/
theorem opClass_encode_eq_unpack_iff (i : Instr) :
    opClass (encode i) = .unpack ↔ i = .unpack ∨ i = .unpackAlias := by
  cases i <;> decide

/-- `InvalidLength` by the names of the commands (R141). -/
theorem raises_invalidLength_iff (i : Instr) (n : Nat) :
    Raises i n .invalidLength ↔
      ((i = .packEven ∨ i = .packOdd) ∧ n % 8 ≠ 0) ∨ ((i = .unpack ∨ i = .unpackAlias) ∧ n % 9 ≠ 0) := by
  rw [← opClass_encode_eq_pack_iff, ← opClass_encode_eq_unpack_iff, Raises]

/-- Settles O13: a ready command reports the error that it raises, and an idle core needs no byte of `IN` to take
its entry. -/
theorem invalidLengthExactly : Obligations.InvalidLengthExactly := by
  refine ⟨fun i s hready => ?_, fun i s hp hl => ?_⟩
  · obtain ⟨t, hx, -⟩ := everyReadyCommandCompletes i s hready
    exact ⟨t, hx, (status_eq_iff_raises hx (by decide)).trans (raises_invalidLength_iff i s.len)⟩
  · exact ⟨_, exec_of_raises hp ((raises_invalidLength_iff i s.len).mpr hl), s.errorEntry_accept_raise _⟩

/-- What follows acceptance depends on the state that acceptance leaves (R125, R126). -/
theorem State.accepted_congr {s t : State} (hs : s.phase = .idle) (ht : t.phase = .idle)
    (h : t.accept = s.accept) (k : State → Host.Outcome State Fault Refusal) : t.accepted k = s.accepted k := by
  rw [t.accepted_idle k ht, s.accepted_idle k hs, h]

/-- Two idle cores that acceptance takes to one state give a command one outcome. -/
theorem exec_congr_accept (i : Instr) {s t : State} (hs : s.phase = .idle) (ht : t.phase = .idle)
    (h : t.accept = s.accept) : exec i t = exec i s := by
  rw [exec_eq_of_class, exec_eq_of_class]
  cases opClass (encode i) with
  | par => exact State.accepted_congr hs ht h _
  | pack => exact State.accepted_congr hs ht h _
  | unpack => exact State.accepted_congr hs ht h _
  | reserved => exact State.accepted_congr hs ht h _

/-- Settles O16: the next acceptance overwrites all that the error entry wrote. -/
theorem failedCommandLeavesNoTrace : Obligations.FailedCommandLeavesNoTrace := by
  intro i j s t op n v hx hok
  obtain ⟨hp, e, -, rfl⟩ := exec_failed hx hok
  exact ⟨rfl, exec_congr_accept j hp rfl rfl⟩

end Sys2Proof.Machine
end

section
/-! SUPPORT. No fault of the machine under the invariant (60_exceptions.md R143, R148): commands raise none, and
those of a micro-step stand in states that the invariant rules out (R23, R24). -/

namespace Sys2Proof.Machine

/-- A read of `IN` brings no fault of its own: a missing byte is a refusal (R167). -/
theorem State.readIn_ne_fault {s : State} {i : Nat} {k : Byte → Host.Outcome State Fault Refusal} {f : Fault}
    (h : ∀ v, k v ≠ .fault f) : s.readIn i k ≠ .fault f := by
  cases hr : s.inp.read i with
  | none => simp [hr]
  | some v => simpa [hr] using h v

/-- No command faults: its errors are results, and its only stops are refusals (R143, R148). -/
theorem exec_ne_fault (i : Instr) (s : State) (f : Fault) : exec i s ≠ .fault f := by
  cases hp : s.phase with
  | run => simp [exec_run i hp]
  | idle =>
    rw [exec_eq_of_class]
    cases opClass (encode i) with
    | par => simp [parCommand_idle _ _ s hp]
    | reserved => simp [reservedCommand_idle s hp]
    | pack =>
      by_cases hl : s.len % 8 = 0
      · cases hr : s.inp.readList 0 s.len with
        | none => simp [packCommand_missing _ _ s hp hl hr]
        | some raw => simp [packCommand_valid _ _ s raw hp hl hr]
      · simp [packCommand_invalid _ _ s hp hl]
    | unpack =>
      by_cases hl : s.len % 9 = 0
      · cases hr : s.inp.readList 0 s.len with
        | none => simp [unpackCommand_missing _ s hp hl hr]
        | some enc => simp [unpackCommand_valid _ s enc hp hl hr]
      · simp [unpackCommand_invalid _ s hp hl]

/-- The acceptance at micro-step level starts a command or is the whole of one, so it does not fault either. -/
theorem microAccept_ne_fault (i : Instr) {s : State} (hp : s.phase = .idle) (f : Fault) :
    microAccept i s ≠ .fault f := by
  by_cases hv : (opClass (encode i) = .pack ∨ opClass (encode i) = .unpack) ∧
      lengthOk (opClass (encode i)) s.len = true
  · obtain ⟨hc, hl⟩ := hv
    simp [microAccept_of_valid hp hc hl]
  · rw [microAccept_eq_exec hp hv]
    exact exec_ne_fault i s f

/-- A position of R23 is the first, one in the middle, or the last, and a packer's micro-step has a rule at each
of them (R100). -/
theorem packMicro_ne_fault {s : State} (h8 : s.pos.toNat ≤ 8) (f : Fault) : packMicro s ≠ .fault f := by
  unfold packMicro
  dsimp only
  split
  · exact State.readIn_ne_fault fun _ => nofun
  · split
    · exact State.readIn_ne_fault fun _ => State.readIn_ne_fault fun _ => nofun
    · rw [if_pos (by omega)]
      exact State.readIn_ne_fault fun _ => nofun

/-- An unpacker's micro-step has a rule at each of them too (R117). -/
theorem unpackMicro_ne_fault {s : State} (h8 : s.pos.toNat ≤ 8) (f : Fault) : unpackMicro s ≠ .fault f := by
  unfold unpackMicro
  dsimp only
  split
  · exact State.readIn_ne_fault fun _ => nofun
  · split
    · exact State.readIn_ne_fault fun _ => nofun
    · rw [if_pos (by omega)]
      exact State.readIn_ne_fault fun _ => nofun

/-- With a buffer command latched and a position of R23, a step in RUN is a micro-step or the completion. -/
theorem microStep_ne_fault {s : State} (hc : opClass s.opl = .pack ∨ opClass s.opl = .unpack)
    (h8 : s.pos.toNat ≤ 8) (f : Fault) : microStep s ≠ .fault f := by
  obtain hc | hc := hc
  · simp only [microStep, hc]
    split
    · exact packMicro_ne_fault h8 f
    · nofun
  · simp only [microStep, hc]
    split
    · exact unpackMicro_ne_fault h8 f
    · nofun

/-- A step of the micro-step machine is an acceptance, a wait, a refusal or a micro-step (R125, R126, R169). -/
theorem State.Inv.stepMicro_ne_fault {s : State} (h : s.Inv) (f : Fault) : stepMicro s ≠ .fault f := by
  obtain ⟨-, h8, -, -, hrun, -⟩ := h
  cases hp : s.phase with
  | idle =>
    simp only [stepMicro, hp]
    split
    · exact microAccept_ne_fault _ hp f
    · nofun
  | run =>
    obtain ⟨hc, -⟩ := hrun hp
    simp only [stepMicro, hp]
    split
    · nofun
    · exact microStep_ne_fault hc h8 f

/-- Settles O54: an offered command faults at neither level, and every other step is one of the micro-step
machine. -/
theorem noFaultUnderInvariant : Obligations.NoFaultUnderInvariant := by
  refine fun s f h => ⟨?_, h.stepMicro_ne_fault f⟩
  by_cases hs : s.phase = .idle ∧ s.offered = true
  · rw [step_offered hs.1 hs.2]
    exact exec_ne_fault _ s f
  · rw [step_eq_stepMicro hs]
    exact h.stepMicro_ne_fault f

end Sys2Proof.Machine
end

section
/-! SUPPORT. A byte of `IN` without a value (70_reset_and_hazards.md R167, 20_memory.md R46): a command that must
read it is refused (log 7), and any other command of an idle core completes. -/

namespace Sys2Proof.Machine

/-- A list read fails at a byte without a value. -/
theorem Memory.readList_eq_none_of_read {m : Memory} {i n k : Nat} (hk : k < n) (h : m.read (i + k) = none) :
    m.readList i n = none := by
  cases hr : m.readList i n with
  | none => rfl
  | some vs =>
    obtain ⟨rfl, hread⟩ := (Memory.readList_eq_some _ _ _ _).mp hr
    simp [hread k hk] at h

/-- A pack command reads a byte of `IN` exactly when its length is valid and the byte is below it (R46). -/
theorem lt_inLength_pack (n k : Nat) : k < inLength .pack n ↔ n % 8 = 0 ∧ k < n := by
  by_cases hl : n % 8 = 0 <;> simp [inLength, hl]

/-- An unpack command reads by the same rule with blocks of 9 (R46). -/
theorem lt_inLength_unpack (n k : Nat) : k < inLength .unpack n ↔ n % 9 = 0 ∧ k < n := by
  by_cases hl : n % 9 = 0 <;> simp [inLength, hl]

/-- A command that must read a byte without a value is refused (R167, D15, U5, log 7). -/
theorem exec_of_missing {i : Instr} {s : State} {k : Nat} (hp : s.phase = .idle)
    (hk : k < inLength (opClass (encode i)) s.len) (hnone : s.inp.read k = none) :
    exec i s = .refused .inByteHasNoValue := by
  rw [← Nat.zero_add k] at hnone
  rw [exec_eq_of_class]
  cases hc : opClass (encode i) with
  | par => simp [hc, inLength] at hk
  | reserved => simp [hc, inLength] at hk
  | pack =>
    rw [hc, lt_inLength_pack] at hk
    obtain ⟨hl, hk⟩ := hk
    exact packCommand_missing _ _ s hp hl (Memory.readList_eq_none_of_read hk hnone)
  | unpack =>
    rw [hc, lt_inLength_unpack] at hk
    obtain ⟨hl, hk⟩ := hk
    exact unpackCommand_missing _ s hp hl (Memory.readList_eq_none_of_read hk hnone)

/-- An idle core that misses no byte the command reads can execute it (R163, R167). -/
theorem State.ready_of_no_missing {i : Instr} {s : State} (hp : s.phase = .idle)
    (h : ¬ ∃ k, k < inLength (opClass (encode i)) s.len ∧ s.inp.read k = none) : s.Ready i :=
  ⟨hp, fun k hk => Option.isSome_iff_ne_none.mpr fun hnone => h ⟨k, hk, hnone⟩⟩

/-- Settles O36: a byte that is missing refuses the command, and with none missing the command completes. -/
theorem missingInputIsRefused : Obligations.MissingInputIsRefused := by
  intro i s hp
  by_cases hmissing : ∃ k, k < inLength (opClass (encode i)) s.len ∧ s.inp.read k = none
  · obtain ⟨k, hk, hnone⟩ := id hmissing
    have hx := exec_of_missing hp hk hnone
    refine ⟨iff_of_true hmissing hx, exec_ne_fault i s, fun r hr => ?_⟩
    rw [hx] at hr
    cases hr
    rfl
  · obtain ⟨t, hx, -⟩ := everyReadyCommandCompletes i s (State.ready_of_no_missing hp hmissing)
    exact ⟨iff_of_false hmissing (by simp [hx]), exec_ne_fault i s, by simp [hx]⟩

end Sys2Proof.Machine
end

section
/-! SUPPORT. Reset, at power-on and as an event (10_state.md R32, 70_reset_and_hazards.md R160, R161). -/

namespace Sys2Proof.Machine

/-- Settles O5: each register and port by the update that resets it. -/
theorem resetLeavesSpecValues : Obligations.ResetLeavesSpecValues :=
  ⟨fun s => ⟨s.resetEvent_phase, s.resetEvent_carry, s.resetEvent_pos, s.resetEvent_blk, s.resetEvent_nblk,
    s.resetEvent_opl, s.resetEvent_status, s.resetEvent_outLen, s.resetEvent_p, s.resetEvent_inp,
    s.resetEvent_out⟩, rfl, rfl, rfl, rfl, rfl, rfl, rfl, rfl, rfl⟩

/-- `STATUS` without a value is a fault of the host that reads it (R26, R32, U8). -/
theorem State.hostReadStatus_none {s : State} (h : s.status = none) :
    s.hostReadStatus = .error .resultPortHasNoValue := by
  simp only [State.hostReadStatus, h]

/-- `OUTLEN` without a value is a fault of the host that reads it (R26, R32, U8). -/
theorem State.hostReadOutLen_none {s : State} (h : s.outLen = none) :
    s.hostReadOutLen = .error .resultPortHasNoValue := by
  simp only [State.hostReadOutLen, h]

/-- `P` without a value is a fault of the host that reads it (R26, R32, U8). -/
theorem State.hostReadP_none {s : State} (h : s.p = none) : s.hostReadP = .error .resultPortHasNoValue := by
  simp only [State.hostReadP, h]

/-- While `STATUS` has no value, no byte of `OUT` has one for the host, whatever stands there (R46, U9). -/
theorem State.hostReadOut_of_status_none {s : State} (h : s.status = none) (i : Nat) :
    s.hostReadOut i = .error .outByteHasNoValue := by
  simp only [State.hostReadOut, h]

/-- Settles O6: the reset event takes the value of every result port, and with `STATUS` that of `OUT`. -/
theorem resetDuringCommandLeavesNoResult : Obligations.ResetDuringCommandLeavesNoResult :=
  fun s _ => ⟨s.resetEvent_phase, State.hostReadStatus_none s.resetEvent_status,
    State.hostReadOutLen_none s.resetEvent_outLen, State.hostReadP_none s.resetEvent_p,
    State.hostReadOut_of_status_none s.resetEvent_status⟩

/-- Settles O50: reset is an idle state with empty buffers, no result and the registers at rest. -/
theorem invariantHoldsAtReset : Obligations.InvariantHoldsAtReset :=
  State.inv_of_idle rfl State.reset_buffers_wf (State.resultsAgree_of_no_results rfl rfl rfl) rfl rfl rfl

end Sys2Proof.Machine
end

section
/-! SUPPORT. What the host may do to an idle core and what is held off until completion
(70_reset_and_hazards.md R163 to R170, logs 16, 20). -/

namespace Sys2Proof.Machine

/-- Settles O56: `present_next` says all that an offer can answer, and a well-formed one is taken. -/
theorem offerIsTakenWhenDutiesAreKept : Obligations.OfferIsTakenWhenDutiesAreKept := by
  refine fun o s => ⟨⟨?_, ?_⟩, fun t ht => ?_⟩
  · rintro ⟨t, ht⟩
    obtain ⟨hp, hs, ho, -⟩ := present_next ht
    exact ⟨hp, hs, ho⟩
  · rintro ⟨hp, hs, ho⟩
    exact ⟨s.presented o, present_of_wellFormed ho hp hs⟩
  · obtain ⟨-, -, -, rfl⟩ := present_next ht
    exact ⟨rfl, rfl, rfl, rfl, Memory.readList_writeList _ _ _, rfl⟩

/-- A standing offer holds the whole input buffer of its command, valid or not (R164). -/
theorem State.inHeld_idle_offered {s : State} (hp : s.phase = .idle) (ho : s.offered = true) :
    s.inHeld = bufferLength (opClass s.op) s.len := by
  simp only [State.inHeld, hp, ho, if_true]

/-- A byte of `IN` that is held cannot be written by the host (R164, log 16). -/
theorem hostWriteIn_of_held {s : State} {i : Nat} (v : Byte) (h : i < s.inHeld) :
    s.hostWriteIn i v = .refused .inWrittenDuringCommand :=
  if_pos h

/-- In RUN the host cannot write `OUT` (R166, log 16). -/
theorem hostWriteOut_run {s : State} (i : Nat) (v : Byte) (hp : s.phase = .run) :
    s.hostWriteOut i v = .refused .outWrittenDuringCommand := by
  simp only [State.hostWriteOut, hp]

/-- While an offer stands the host cannot drive the ports (R163, log 20). -/
theorem hostDrivePorts_offered {s : State} (op : OpWord) (n : Nat) (v : Byte) (hp : s.phase = .idle)
    (ho : s.offered = true) : s.hostDrivePorts op n v = .refused .portsDrivenDuringOffer := by
  simp only [State.hostDrivePorts, hp, ho, if_true]

/-- In RUN, and with nothing offered, the host drives the ports as it likes (R51, R163). -/
theorem hostDrivePorts_free {s : State} (op : OpWord) (n : Nat) (v : Byte)
    (h : s.phase = .run ∨ s.offered = false) : s.hostDrivePorts op n v = .next (s.drivePorts op n v) := by
  cases hp : s.phase with
  | run => simp only [State.hostDrivePorts, hp]
  | idle =>
    have ho : s.offered = false := h.resolve_left (by simp [hp])
    simp [State.hostDrivePorts, hp, ho]

/-- Settles O57: the bytes held are those of `State.inHeld`, and the other moves look at the phase and the offer. -/
theorem hostWritesAreHeldOff : Obligations.HostWritesAreHeldOff := by
  refine fun s i v => ⟨fun hp ho hi => hostWriteIn_of_held v ?_, hostWriteOut_run i v,
    fun hp hc hi => hostWriteIn_of_held v ?_, fun hp hc hi => hostWriteIn_of_held v ?_,
    fun op n => ⟨hostDrivePorts_offered op n v, hostDrivePorts_free op n v⟩⟩
  · rwa [State.inHeld_idle_offered hp ho]
  · rwa [s.inHeld_run_pack hp hc]
  · rwa [s.inHeld_run_unpack hp hc]

end Sys2Proof.Machine
end
